-- ==== Sys2Proof/Config.lean ====
section
/-! DEFINITION. The implementation parameters of spec/00_scope.md R5: those the spec fixes, and the two it leaves
OPEN, which are constants without a body (log 8). -/

namespace Sys2Proof

/-- `NREGS` (R5, D1): the number of register cells. -/
abbrev Config.nregs : Nat := 8

/-- `NAME_LEN` (R5, D1): the number of bytes of a canonical register name that the comparator looks at. -/
def Config.nameLen : Nat := 4

/-- `PROG_LEN <= PROG_MAX <= 2^31 - 1` (R5): the largest number of lines any implementation may have. -/
def Config.progCap : Nat := 2147483647

/-- `LINE_MAX - 1`, left OPEN by R5 (D16). DESIGN CHOICE (log 8): no body, so nothing can be proved of its value. Safe. -/
opaque Config.lineMaxPred : Nat

/-- `LINE_MAX` (R5, D16): the most text bytes in a line; at least 1, else OPEN. -/
def Config.lineMax : Nat := Config.lineMaxPred + 1

/-- `PROG_MAX`, left OPEN by R5 (D16) within 0 .. 2^31 - 1. DESIGN CHOICE (log 8): no body. Safe. -/
opaque Config.progMaxFin : Fin 2147483648

/-- `PROG_MAX` (R5, D16): the most lines in the program store; at most `progCap`, else OPEN. -/
def Config.progMax : Nat := Config.progMaxFin.val

end Sys2Proof
end

