-- ==== Sys2Proof/Word.lean ====
section
/-! DEFINITION. The value types: register cells and the instruction pointer (spec/00_scope.md R5, R6) and text (R7). -/

namespace Sys2Proof

/-- One register cell: `XLEN` = 32 bits, read as two's complement through `BitVec.toInt` (R5, R6, D2). -/
abbrev Word := BitVec 32

/-- The instruction pointer and `ERR_INDEX`: `IPLEN` = 32 bits, unsigned, read through `BitVec.toNat` (R5, R13, D6). -/
abbrev LineIndex := BitVec 32

/-- One byte of text (R7). -/
abbrev Byte := BitVec 8

/-- A run of bytes of a line; the empty token stands for an absent operand (R7, R48). -/
abbrev Token := List Byte

/-- The text of one program line (R17). -/
abbrev Line := List Byte

/-- The index of a register cell (R10). -/
abbrev Reg := Fin Config.nregs

end Sys2Proof
end

