-- ==== Sys2Proof/Machine/Arith.lean ====
section
/-! DEFINITION. The datapath of the seven two-operand instructions: `to_s32` and `to_u32` (spec/00_scope.md R6) and
the functions `F_op` (spec/40_alu.md R71 to R78), each computed exactly on integers and then narrowed. -/

namespace Sys2Proof.Machine

/-- `to_s32(z)` (R6): the 32-bit value congruent to `z` modulo 2^32. -/
def toS32 (z : Int) : Word := BitVec.ofInt 32 z

/-- `to_u32(z)` (R6): the same residue, read unsigned; the instruction pointer's form. -/
def toU32 (z : Int) : LineIndex := BitVec.ofInt 32 z

/-- `F_ADD(a, b) = to_s32(a + b)` (R71): overflow wraps, nothing records it. -/
def fAdd (a b : Word) : Word := toS32 (a.toInt + b.toInt)

/-- `F_SUB(a, b) = to_s32(a - b)` (R72). -/
def fSub (a b : Word) : Word := toS32 (a.toInt - b.toInt)

/-- `to_u32(b)[4:0]` (R73, R74, D5): the shift amount, 0 .. 31. -/
def shiftAmount (b : Word) : Nat := (b.extractLsb' 0 5).toNat

/-- `F_SHL(a, b) = to_s32(a * 2^s)` (R73). -/
def fShl (a b : Word) : Word := toS32 (a.toInt * 2 ^ shiftAmount b)

/-- `F_SHR(a, b) = floor(a / 2^s)` (R74, D4): the arithmetic shift; `Int.fdiv` rounds toward minus infinity. -/
def fShr (a b : Word) : Word := toS32 (Int.fdiv a.toInt (2 ^ shiftAmount b))

/-- `F_SET(a, b) = b` (R75): the old value is not used. -/
def fSet (_a b : Word) : Word := b

/-- `F_AND` (R76): bitwise and of the two patterns. -/
def fAnd (a b : Word) : Word := a &&& b

/-- `F_OR` (R77): bitwise inclusive or of the two patterns. -/
def fOr (a b : Word) : Word := a ||| b

end Sys2Proof.Machine
end

