-- ==== Sys2Proof/Machine/Text.lean ====
section
/-! DEFINITION. Text: delimiters and the tokenizer (spec/30_encoding.md R46 to R48), decimal literals (R56, R57) and
the decimal form of a register (spec/42_prt.md R92), the fixed-width slot of a line (spec/20_memory.md R33). -/

namespace Sys2Proof.Machine

/-- The six delimiter bytes: tab, line feed, vertical tab, form feed, carriage return, space (R46, D11). -/
def isDelim (b : Byte) : Bool :=
  b == 0x09 || b == 0x0A || b == 0x0B || b == 0x0C || b == 0x0D || b == 0x20

/-- The pad byte 0x00 of a slot (R33), which no line holds (R17, R46). -/
def isPad (b : Byte) : Bool := b == 0x00

/-- A byte a token is made of (R46): neither a delimiter nor the pad byte. -/
def isTokenByte (b : Byte) : Bool := !isDelim b && !isPad b

/-- The tokens of `cur` followed by the bytes given, where `cur` is the token begun so far (R47). -/
def tokensFrom (cur : Token) : List Byte → List Token
  | [] => if cur.isEmpty then [] else [cur]
  | b :: bs =>
    if isDelim b then
      if cur.isEmpty then tokensFrom [] bs else cur :: tokensFrom [] bs
    else tokensFrom (cur ++ [b]) bs

/-- All tokens of a line, in order: its maximal runs of token bytes (R47). -/
def tokensOf (line : Line) : List Token := tokensFrom [] line

/-- What `Tokenize` answers (R48): three tokens, the empty one standing for an absent one. -/
structure Tokens where
  t0 : Token
  t1 : Token
  t2 : Token
  deriving DecidableEq, Repr

/-- `Tokenize(line)` (R48): the first three tokens; later ones are ignored (R52). -/
def tokenize (line : Line) : Tokens :=
  let ts := tokensOf line
  ⟨ts.getD 0 [], ts.getD 1 [], ts.getD 2 []⟩

/-- An ASCII decimal digit, 0x30 .. 0x39 (R56). -/
def isDigit (b : Byte) : Bool := decide (0x30 ≤ b.toNat) && decide (b.toNat ≤ 0x39)

/-- The integer that digits denote in base 10, most significant first (R57). -/
def digitsValue (ds : List Byte) : Nat := ds.foldl (fun m b => 10 * m + (b.toNat - 0x30)) 0

/-- One or more digits and nothing else (R56). -/
def allDigits (ds : List Byte) : Bool := !ds.isEmpty && ds.all isDigit

/-- The mathematical integer of a token of the form `^[+-]?[0-9]+$` (R56, R57), before the range is looked at. -/
def litInt : Token → Option Int
  | [] => none
  | b :: ds =>
    if b = 0x2D then (if allDigits ds then some (-(digitsValue ds : Int)) else none)
    else if b = 0x2B then (if allDigits ds then some (digitsValue ds : Int) else none)
    else if allDigits (b :: ds) then some (digitsValue (b :: ds) : Int) else none

/-- `LitValue(tok)` (R57, D8): the value where it lies in -2^31 .. 2^31 - 1; by value, not by digit count. -/
def litValue (tok : Token) : Option Word :=
  match litInt tok with
  | some z => if -2147483648 ≤ z ∧ z ≤ 2147483647 then some (toS32 z) else none
  | none => none

/-- The ASCII digit of `n` modulo 10 (R92). -/
def digit (n : Nat) : Byte := BitVec.ofNat 8 (0x30 + n % 10)

/-- The decimal numeral of `n < 10^(fuel + 1)` without leading zeros (R92). -/
def decNat : Nat → Nat → List Byte
  | 0, n => [digit n]
  | fuel + 1, n => if n < 10 then [digit n] else decNat fuel (n / 10) ++ [digit n]

/-- `Dec(v)` (R92, D18): the shortest signed decimal text; a 32-bit value has at most ten digits. -/
def dec (v : Word) : List Byte :=
  if v.toInt < 0 then 0x2D :: decNat 9 v.toInt.natAbs else decNat 9 v.toInt.natAbs

/-- The slot of a line (R33): `LINE_MAX + 1` bytes, the text first, then pad bytes. -/
def slotOfLine (line : Line) : List Byte :=
  line ++ List.replicate (Config.lineMax + 1 - line.length) 0x00

/-- The line a slot holds (R33): its bytes before the first pad byte. -/
def lineOfSlot (slot : List Byte) : Line := slot.takeWhile fun b => !isPad b

end Sys2Proof.Machine
end

