-- ==== Sys2Proof/Syntax/Parts.lean ====
section
/-! DEFINITION. The parts an instruction is made of: its opcode (spec/30_encoding.md R50) and the resolved forms of
its operands (R54, R59, R65). -/

namespace Sys2Proof

/-- The nine entries of the Opcode Table (R50). -/
inductive Opcode where
  | add | sub | shl | shr | set | and | or | j | prt
  deriving DecidableEq, Repr

/-- An operand as `Resolve` answers it (R54). -/
inductive Operand where
  /-- `Reg(i)`: a register reference. -/
  | reg (i : Reg)
  /-- `Imm(v)`: a literal. -/
  | imm (v : Word)
  /-- `Unresolvable`, with the token's bytes; the absent operand is the empty token (R53). -/
  | text (t : Token)
  deriving DecidableEq, Repr

/-- The operand of PRT (R59, R65): a register, or any other token, of which only the bytes count. -/
inductive PrtValue where
  /-- `PrtReg(r)`: the register whose value is printed. -/
  | reg (r : Reg)
  /-- `PrtText(s)`: the token's own bytes, a literal's included; the absent operand is the empty token (R53). -/
  | text (t : Token)
  deriving DecidableEq, Repr

end Sys2Proof
end

