-- ==== Sys2Proof/Syntax.lean ====
section
/-! DEFINITION. The instructions: one constructor per row of spec/opcode_table.json (spec/30_encoding.md R49, R50).
A row is selected by the mnemonic alone (R66), so an operand may have any resolved form: a form the row does not
accept (R59) is decoded, and its execution takes the error the row names. -/

namespace Sys2Proof

/-- An instruction of the asm-simulator ISA with its resolved operands. -/
inductive Instr where
  /-- `ADD dst src` (40_alu.md R71). -/
  | add (dst src : Operand)
  /-- `SUB dst src` (R72). -/
  | sub (dst src : Operand)
  /-- `SHL dst src` (R73). -/
  | shl (dst src : Operand)
  /-- `SHR dst src` (R74). -/
  | shr (dst src : Operand)
  /-- `SET dst src` (R75). -/
  | set (dst src : Operand)
  /-- `AND dst src` (R76). -/
  | and (dst src : Operand)
  /-- `OR dst src` (R77). -/
  | or (dst src : Operand)
  /-- `J target` (41_jump.md R85). -/
  | j (target : Operand)
  /-- `PRT value` (42_prt.md R90). -/
  | prt (value : PrtValue)
  deriving DecidableEq, Repr

/-- The opcode of an instruction (R50). -/
def Instr.opcode : Instr → Opcode
  | .add _ _ => .add
  | .sub _ _ => .sub
  | .shl _ _ => .shl
  | .shr _ _ => .shr
  | .set _ _ => .set
  | .and _ _ => .and
  | .or _ _ => .or
  | .j _ => .j
  | .prt _ => .prt

/-- The two operands of an instruction of format RS (R49), and `none` for the formats T and V. -/
def Instr.rsOperands : Instr → Option (Operand × Operand)
  | .add dst src => some (dst, src)
  | .sub dst src => some (dst, src)
  | .shl dst src => some (dst, src)
  | .shr dst src => some (dst, src)
  | .set dst src => some (dst, src)
  | .and dst src => some (dst, src)
  | .or dst src => some (dst, src)
  | .j _ => none
  | .prt _ => none

end Sys2Proof
end

