-- ==== Sys2Proof/Decode.lean ====
section
/-! DEFINITION. Decoding a line of text (spec/30_encoding.md): the Opcode Table (R50, R51), the Operand Resolver
(R54 to R58), `decode`, and after it the encoder in the canonical spelling (R64) and the reading of the words of
spec/opcode_table.json (R66). -/

namespace Sys2Proof

open Sys2Proof.Machine

/-- The mnemonic's bytes (R50). -/
def Opcode.bytes : Opcode → Token
  | .add => [0x41, 0x44, 0x44]
  | .sub => [0x53, 0x55, 0x42]
  | .shl => [0x53, 0x48, 0x4C]
  | .shr => [0x53, 0x48, 0x52]
  | .set => [0x53, 0x45, 0x54]
  | .and => [0x41, 0x4E, 0x44]
  | .or => [0x4F, 0x52]
  | .j => [0x4A]
  | .prt => [0x50, 0x52, 0x54]

/-- The Opcode Table (R50), in the order of opcode_table.json. -/
def opcodeTable : List Opcode := [.add, .sub, .shl, .shr, .set, .and, .or, .j, .prt]

/-- `Lookup(t0)` (R51, D10): whole-token, case-sensitive equality. -/
def lookup (t0 : Token) : Option Opcode := opcodeTable.find? fun o => o.bytes == t0

/-- The canonical name of cell `i` (R10): `REG` and one digit. -/
def regName (i : Reg) : Token := [0x52, 0x45, 0x47, BitVec.ofNat 8 (0x30 + i.val)]

/-- `RegMatch(tok)` (R55, D9): the first `NAME_LEN` bytes equal a canonical name; later bytes are not compared. -/
def regMatch (tok : Token) : Option Reg :=
  (List.finRange Config.nregs).find? fun i => tok.take Config.nameLen == regName i

/-- `Resolve(tok)` (R54): register lookup first, then the literal, else unresolvable (R58). -/
def resolve (tok : Token) : Operand :=
  match regMatch tok with
  | some i => .reg i
  | none =>
    match litValue tok with
    | some v => .imm v
    | none => .text tok

/-- PRT's reading of its operand (R59): every token that is no register is text. -/
def resolvePrt (tok : Token) : PrtValue :=
  match regMatch tok with
  | some r => .reg r
  | none => .text tok

/-- Why a line is no instruction. -/
inductive DecodeError where
  /-- `Lookup(t0) = none` (R51, R61): the line takes the error UnknownOpcode when it is reached (R107). -/
  | unknownOpcode
  /-- The line holds the byte 0x00, which no line does (R17, R46); the step faults (log 7). Safe. -/
  | padByte
  deriving DecidableEq, Repr

/-- The result of decoding a line. -/
inductive Decoded where
  | ok (i : Instr)
  | error (e : DecodeError)
  deriving DecidableEq, Repr

/-- The instruction of an opcode with the tokens its format uses (R49, R52): formats T and V ignore `t2`. -/
def instrOf (o : Opcode) (t1 t2 : Token) : Instr :=
  match o with
  | .add => .add (resolve t1) (resolve t2)
  | .sub => .sub (resolve t1) (resolve t2)
  | .shl => .shl (resolve t1) (resolve t2)
  | .shr => .shr (resolve t1) (resolve t2)
  | .set => .set (resolve t1) (resolve t2)
  | .and => .and (resolve t1) (resolve t2)
  | .or => .or (resolve t1) (resolve t2)
  | .j => .j (resolve t1)
  | .prt => .prt (resolvePrt t1)

/-- Decode one line (R60, R65, R95): total on any bytes. `Resolve` reads nothing but its token (R54), so resolving
both operands here is resolving them at execution; which of them raises an error, and in what order, is the
meaning's (R70, R111). DEDUCED (log 10): a line R65 calls Bad for its operands is here its row's instruction with the
wrong form kept, and takes that error when executed. Safe. -/
def decode (line : Line) : Decoded :=
  if line.any isPad then .error .padByte
  else
    match lookup (tokenize line).t0 with
    | some o => .ok (instrOf o (tokenize line).t1 (tokenize line).t2)
    | none => .error .unknownOpcode

/-- The canonical token of an operand (R64): a register's name, a literal's shortest decimal form, the token itself. -/
def Operand.token : Operand → Token
  | .reg i => regName i
  | .imm v => dec v
  | .text t => t

/-- The canonical token of PRT's operand (R64). -/
def PrtValue.token : PrtValue → Token
  | .reg r => regName r
  | .text t => t

/-- The tokens of an instruction, an absent operand being the empty token (R48, R49, R53). -/
def Instr.tokens : Instr → List Token
  | .add dst src => [Opcode.bytes .add, dst.token, src.token]
  | .sub dst src => [Opcode.bytes .sub, dst.token, src.token]
  | .shl dst src => [Opcode.bytes .shl, dst.token, src.token]
  | .shr dst src => [Opcode.bytes .shr, dst.token, src.token]
  | .set dst src => [Opcode.bytes .set, dst.token, src.token]
  | .and dst src => [Opcode.bytes .and, dst.token, src.token]
  | .or dst src => [Opcode.bytes .or, dst.token, src.token]
  | .j target => [Opcode.bytes .j, target.token]
  | .prt value => [Opcode.bytes .prt, value.token]

/-- Tokens with one space between two of them (R64). -/
def joinTokens : List Token → Line
  | [] => []
  | [t] => t
  | t :: u :: ts => t ++ 0x20 :: joinTokens (u :: ts)

/-- The canonical line of an instruction (R64): the mnemonic, then its operands, one space before each; an absent
operand is left out (R48). -/
def encode (i : Instr) : Line := joinTokens (i.tokens.filter fun t => !t.isEmpty)

/-- The bytes of an `n`-byte number, first byte most significant, as R66 reads opcode_table.json (log 3). -/
def bytesOfNumber : Nat → Nat → List Byte
  | 0, _ => []
  | n + 1, w => bytesOfNumber n (w / 256) ++ [BitVec.ofNat 8 w]

/-- The line of a table word: its bytes stand at the start of a slot whose every later byte is 0, the pad byte (R33). -/
def lineOfTableWord (nbits w : Nat) : Line := lineOfSlot (bytesOfNumber (nbits / 8) w ++ [0x00])

/-- The instruction the decoder reads from a word of opcode_table.json (R66). -/
def decodeTableWord (nbits w : Nat) : Option Instr :=
  match decode (lineOfTableWord nbits w) with
  | .ok i => some i
  | .error _ => none

end Sys2Proof
end

