-- ==== Sys2Proof/Machine/State.lean ====
section
/-! DEFINITION. The machine's state (spec/10_state.md R10 to R29), its faults and refusals, and the state after
reset (R28, spec/70_reset_and_hazards.md R125). State is plain data. -/

namespace Sys2Proof.Machine

/-- `RUN_STATE` (R18): RUNNING or HALTED, the second terminal. -/
inductive RunState where
  | running | halted
  deriving DecidableEq, Repr

/-- `ERR_KIND` (R18; spec/60_exceptions.md R105). -/
inductive ErrKind where
  | none | sourceUnavailable | unknownOpcode | invalidDestination | invalidJumpTarget | invalidOperand
  deriving DecidableEq, Repr

/-- An event of the output log (R20). -/
inductive Event where
  /-- `Prt(s)`: the text one PRT hands over, without a line terminator. -/
  | prt (s : List Byte)
  /-- `Done`: the halting transition. -/
  | done
  deriving DecidableEq, Repr

/-- The program store: the lines of the Program in order; `PROG_LEN` is its length (R17). One list of lines is one
store, so the form is canonical (log 1). -/
abbrev Memory := List Line

/-- A line as the loader leaves it (R17): no byte 0x00 and no byte 0x0A. -/
def lineOk (line : Line) : Bool := line.all fun b => b != 0x00 && b != 0x0A

/-- The form the host gives the store (R17, R122) as far as its numbers are fixed: clean lines, and no more of them
than any `PROG_MAX` allows (R5). -/
def Memory.wf (m : Memory) : Bool := decide (m.length ≤ Config.progCap) && m.all lineOk

/-- The OPEN bounds of R5 on the store: `PROG_MAX` lines of `LINE_MAX` bytes. -/
def Memory.bounded (m : Memory) : Prop :=
  m.length ≤ Config.progMax ∧ ∀ line ∈ m, line.length ≤ Config.lineMax

/-- All the state the spec gives the machine (R29), with the program store and the `load_ok` input, which R29 calls
parameters of a run and a step here finds in its state (log 1, log 2). -/
structure State where
  /-- `x[0] .. x[7]` (R10). -/
  regs : Vector Word Config.nregs
  /-- The instruction pointer (R13). -/
  ip : LineIndex
  /-- `RUN_STATE` (R18). -/
  runState : RunState
  /-- `ERR_KIND` (R18). -/
  errKind : ErrKind
  /-- `ERR_INDEX` (R18). -/
  errIndex : LineIndex
  /-- `ERR_TEXT` (R18). -/
  errText : Line
  /-- `OUT` (R20), oldest event first. -/
  out : List Event
  /-- The program store (R17). -/
  prog : Memory
  /-- The `load_ok` input as the host last set it (R22). -/
  loadOk : Bool
  deriving DecidableEq, Repr

/-- Why a step stops without a next state. No instruction's error is one of these: an error is a next state, HALTED
(spec/60_exceptions.md R112). -/
inductive Fault where
  /-- Raised by `step` in a HALTED state: "the block has no step" (spec/43_executor.md R97; log 5). Safe. -/
  | halted
  /-- Raised by error entry when no line stands at `ip`: `ProgRead(ip)` is then not defined (spec/20_memory.md R32).
  `step` never gets here, since it executes only a line it has fetched (log 6). Safe. -/
  | noLineAtIp
  /-- Raised by `step` on a line that holds the byte 0x00, which R17 excludes: "a launch that breaks it is outside
  the spec" (spec/60_exceptions.md R122; log 7). Safe. -/
  | malformedLine
  deriving DecidableEq, Repr

/-- Why an instruction has no meaning in the model. -/
inductive Refusal where
  /-- An instruction without a meaning yet; raised by no arm of `exec`. Safe. -/
  | notModelled (mnemonic : String)
  deriving DecidableEq, Repr

/-- The outcome of a step or of a meaning. -/
abbrev Result := Host.Outcome State Fault Refusal

/-- The state after a reset with `load_ok` = 1 (R28, R125), before any program is loaded: the spec gives the program
store no reset value ("not reset: written by the loader before reset is released"), so it is empty here, and
`load_ok` is 1. DESIGN CHOICE (log 2), unsafe. -/
def State.reset : State where
  regs := Vector.replicate Config.nregs 0
  ip := 0
  runState := .running
  errKind := .none
  errIndex := 0
  errText := []
  out := []
  prog := []
  loadOk := true

end Sys2Proof.Machine
end

