-- ==== Sys2Proof/Machine/Ops.lean ====
section
/-! DEFINITION. The named operations over the state: registers (spec/10_state.md R10, R11), the instruction pointer
(R13, R14), the program store (R17, R21, R32), the output log (R20), error entry (spec/60_exceptions.md R112), the
halting transition (spec/43_executor.md R96), and the host's side: load, reset, status port, exit status (R22, R24,
R121, R125). There is no return from an error (R113): a host reset is the only way out of HALTED. -/

namespace Sys2Proof.Machine

/-- `x[i]` (R8, R10). -/
def State.readReg (s : State) (i : Reg) : Word := s.regs[i.val]

/-- `x[i] <- v` (R8): no cell is hardwired (R11). -/
def State.writeReg (s : State) (i : Reg) (v : Word) : State := { s with regs := s.regs.set i.val v }

/-- `ip <- target` (R8). -/
def State.setIp (s : State) (target : LineIndex) : State := { s with ip := target }

/-- `ip <- ip + 1` (R14). Within the bounds of R5 it never wraps (R15); outside them it wraps modulo 2^32 (log 13). -/
def State.advanceIp (s : State) : State := s.setIp (s.ip + 1)

/-- `Out(e)` (R8, R20): append one event. -/
def State.emit (s : State) (e : Event) : State := { s with out := s.out ++ [e] }

/-- `PROG_LEN` (R17). -/
def State.progLen (s : State) : Nat := s.prog.length

/-- `ProgRead(i)` (R21, R32): line `i` of the store, and nothing for `i >= PROG_LEN`. -/
def State.progRead (s : State) (i : Nat) : Option Line := s.prog[i]?

/-- The fetch of a step (R95): the line `ip` names. -/
def State.fetch (s : State) : Option Line := s.progRead s.ip.toNat

/-- The state error entry leaves (R112): the status group written, `RUN_STATE` HALTED, all else as it was. -/
def State.withError (s : State) (k : ErrKind) (line : Line) : State :=
  { s with errKind := k, errIndex := s.ip, errText := line, runState := .halted }

/-- Error entry `raise K(ip, line)` (R112): taking an exception, the one way an instruction fails. The line is the
one at `ip`, which still holds the failing instruction's index (R13). -/
def raise (k : ErrKind) (s : State) : Result :=
  match s.fetch with
  | some line => .next (s.withError k line)
  | none => .fault .noLineAtIp

/-- The halting transition `StepHalt` (R96): `Done`, then HALTED; no register and not `ip` changes. -/
def State.halt (s : State) : State := { s.emit .done with runState := .halted }

/-- The host's load (R22, R128): the store's contents and `load_ok`. After a failed load the store is unspecified
(R28): `m` is then whatever it holds. -/
def State.hostLoad (s : State) (m : Memory) (ok : Bool) : State := { s with prog := m, loadOk := ok }

/-- `Reset()` (R125), the host's, in either state and between two steps (R126). It does not touch the program store. -/
def State.hostReset (s : State) : State where
  regs := Vector.replicate Config.nregs 0
  ip := 0
  runState := if s.loadOk then .running else .halted
  errKind := if s.loadOk then .none else .sourceUnavailable
  errIndex := 0
  errText := []
  out := []
  prog := s.prog
  loadOk := s.loadOk

/-- The 1-bit code of `RUN_STATE` (R18). -/
def RunState.code : RunState → BitVec 1
  | .running => 0
  | .halted => 1

/-- The 3-bit code of `ERR_KIND` (R18, R105, D15). -/
def ErrKind.code : ErrKind → BitVec 3
  | .none => 0
  | .sourceUnavailable => 1
  | .unknownOpcode => 2
  | .invalidDestination => 3
  | .invalidJumpTarget => 4
  | .invalidOperand => 5

/-- What the status port returns (R24). -/
structure StatusPort where
  runState : BitVec 1
  errKind : BitVec 3
  errIndex : LineIndex
  errText : Line
  regs : Vector Word Config.nregs
  ip : LineIndex
  deriving DecidableEq, Repr

/-- A read of the status port (R24): no side effect. -/
def State.statusPort (s : State) : StatusPort :=
  { runState := s.runState.code, errKind := s.errKind.code, errIndex := s.errIndex, errText := s.errText,
    regs := s.regs, ip := s.ip }

/-- The transactions of the output port between two states of a run (R23): the events the later one has more. -/
def State.eventsSince (s t : State) : List Event := t.out.drop s.out.length

/-- The exit status the host returns (R121, D20), once the run has ended: 0 on success, 1 on either failure. -/
def State.exitStatus (s : State) : Option Nat :=
  match s.runState with
  | .running => none
  | .halted => if s.errKind = .none then some 0 else some 1

/-- Put `line` at index `n` of a store; where the store is shorter, empty lines fill the gap (log 4). -/
def Memory.putLine : Memory → Nat → Line → Memory
  | [], 0, line => [line]
  | [], n + 1, line => [] :: Memory.putLine [] n line
  | _ :: m, 0, line => line :: m
  | l :: m, n + 1, line => l :: Memory.putLine m n line

end Sys2Proof.Machine
end

