-- ==== Sys2Proof/Machine/Operands.lean ====
section
/-! DEFINITION. The operand forms (spec/30_encoding.md R59): what each operand position reads or names. -/

namespace Sys2Proof.Machine

/-- The destination of format RS (R59, R70): a register and nothing else. -/
def destOf : Operand → Option Reg
  | .reg rd => some rd
  | .imm _ => none
  | .text _ => none

/-- The value of operand 2 of format RS (R59, R70): a register's content or the literal; `none` is Unresolvable. -/
def State.sourceValue (s : State) : Operand → Option Word
  | .reg rs => some (s.readReg rs)
  | .imm v => some v
  | .text _ => none

/-- The text PRT hands over (R59, R90): a register's value in decimal, or the token's own bytes. -/
def State.prtText (s : State) : PrtValue → List Byte
  | .reg r => dec (s.readReg r)
  | .text t => t

end Sys2Proof.Machine
end

