-- ==== Sys2Proof/Machine/Flags.lean ====
section
/-! DEFINITION. Flags: this hardware has none (spec/10_state.md R16: "A model must not add flags"), so this file
declares nothing. Overflow, carry and shifted-out bits are recorded nowhere (spec/40_alu.md R71 to R78). -/
end

