-- ==== Sys2Proof/Machine/Alu.lean ====
section
/-! DEFINITION. The seven two-operand instructions (spec/40_alu.md). -/

namespace Sys2Proof.Machine

/-- `ExecRS` (R70): operand 1 first, operand 2 second, then read, compute, write, advance. -/
def execRS (f : Word → Word → Word) (dst src : Operand) (s : State) : Result :=
  match destOf dst with
  | none => raise .invalidDestination s
  | some rd =>
    match s.sourceValue src with
    | none => raise .invalidOperand s
    | some b => .next (s.writeReg rd (f (s.readReg rd) b)).advanceIp

/-- ADD (R71). -/
def execAdd (dst src : Operand) (s : State) : Result := execRS fAdd dst src s

/-- SUB (R72). -/
def execSub (dst src : Operand) (s : State) : Result := execRS fSub dst src s

/-- SHL (R73). -/
def execShl (dst src : Operand) (s : State) : Result := execRS fShl dst src s

/-- SHR (R74). -/
def execShr (dst src : Operand) (s : State) : Result := execRS fShr dst src s

/-- SET (R75). -/
def execSet (dst src : Operand) (s : State) : Result := execRS fSet dst src s

/-- AND (R76). -/
def execAnd (dst src : Operand) (s : State) : Result := execRS fAnd dst src s

/-- OR (R77). -/
def execOr (dst src : Operand) (s : State) : Result := execRS fOr dst src s

end Sys2Proof.Machine
end

