-- ==== Sys2Proof/Machine/Jump.lean ====
section
/-! DEFINITION. The jump (spec/41_jump.md). -/

namespace Sys2Proof.Machine

/-- J (R85): a literal target replaces `ip`; a register is InvalidJumpTarget whatever it holds, and any other token
InvalidOperand. No numeric target is an error (R86). -/
def execJ (target : Operand) (s : State) : Result :=
  match target with
  | .imm v => .next (s.setIp (toU32 v.toInt))
  | .reg _ => raise .invalidJumpTarget s
  | .text _ => raise .invalidOperand s

end Sys2Proof.Machine
end

