-- ==== Sys2Proof/Machine/Print.lean ====
section
/-! DEFINITION. The output instruction (spec/42_prt.md). -/

namespace Sys2Proof.Machine

/-- PRT (R90): one event, and it cannot fail. -/
def execPrt (value : PrtValue) (s : State) : Result :=
  .next (s.emit (.prt (s.prtText value))).advanceIp

end Sys2Proof.Machine
end

