-- ==== Sys2Proof/Machine/Dispatch.lean ====
section
/-! DEFINITION. The dispatch of spec/43_executor.md R95: one arm per constructor of Instr. -/

namespace Sys2Proof.Machine

/-- The meaning of a decoded instruction (R95), for the state whose `ip` still holds its index (R13). -/
def exec (i : Instr) (s : State) : Host.Outcome State Fault Refusal :=
  match i with
  | .add dst src => Sys2Proof.Machine.execAdd dst src s
  | .sub dst src => Sys2Proof.Machine.execSub dst src s
  | .shl dst src => Sys2Proof.Machine.execShl dst src s
  | .shr dst src => Sys2Proof.Machine.execShr dst src s
  | .set dst src => Sys2Proof.Machine.execSet dst src s
  | .and dst src => Sys2Proof.Machine.execAnd dst src s
  | .or dst src => Sys2Proof.Machine.execOr dst src s
  | .j target => Sys2Proof.Machine.execJ target s
  | .prt value => Sys2Proof.Machine.execPrt value s

end Sys2Proof.Machine
end

