-- ==== Sys2Proof/Machine/Step.lean ====
section
/-! DEFINITION. One step of the block (spec/43_executor.md R95 to R98). -/

namespace Sys2Proof.Machine

/-- `StepInstr` on the line fetched (R95): decode, then the meaning, or UnknownOpcode (R107). -/
def stepLine (line : Line) (s : State) : Result :=
  match decode line with
  | .ok i => exec i s
  | .error .unknownOpcode => raise .unknownOpcode s
  | .error .padByte => .fault .malformedLine

/-- `Step` (R98): no step when HALTED (R97); `StepInstr` when `ip < PROG_LEN`, else the halting transition (R96).
DEDUCED (log 15), unsafe: R101 (c) and R133 (c), that a reached J with a target at or below its own index makes the run
endless, hold here where J lines form a cycle that execution enters (R100). A backward jump that enters no cycle
(`J 2`; `J 3`; `J 1`; `PRT x`) reaches HALTED, as R86, R95 and R96 say of each step: against the letter of (c), a conflict
no ruling of the spec decides. A negative target reaches HALTED by R86 (D7). -/
def step (s : State) : Host.Outcome State Fault Refusal :=
  match s.runState with
  | .halted => .fault .halted
  | .running =>
    match s.fetch with
    | some line => stepLine line s
    | none => .next s.halt

/-- `s` with the line of a table word loaded where the next step fetches, and the block started: the line stands at
`ip`, `load_ok` is 1 and the status group is as a reset with `load_ok` = 1 leaves it (log 3, log 4). It stands for the
host's load and start (spec/70_reset_and_hazards.md R128). -/
def State.withFetchWord (s : State) (nbits w : Nat) : State :=
  { s with
    prog := s.prog.putLine s.ip.toNat (lineOfTableWord nbits w)
    loadOk := true
    runState := .running
    errKind := .none
    errIndex := 0
    errText := [] }

end Sys2Proof.Machine
end

