-- ==== Sys2Proof/Machine/Run.lean ====
section
/-! DEFINITION. Runs (spec/43_executor.md R98 to R100): steps counted, and the runner with fuel. -/

namespace Sys2Proof.Machine

/-- `n` steps from `s`, ending at the first stop: `Host.Core.run` on this machine, in the model's own types. -/
def stepN : Nat → State → Result
  | 0, s => .next s
  | n + 1, s =>
    match step s with
    | .next t => stepN n t
    | .fault f => .fault f
    | .refused r => .refused r

/-- How a run under fuel ends (R99, R100). -/
inductive RunEnd where
  /-- HALTED with `ERR_KIND` None. -/
  | success (s : State)
  /-- HALTED with one of the four errors an instruction raises. -/
  | executionError (s : State)
  /-- HALTED with `ERR_KIND` SourceUnavailable. -/
  | loadFailure (s : State)
  /-- Still RUNNING with the fuel used up (R100). -/
  | outOfFuel (s : State)
  /-- Stopped by a fault of the model. -/
  | stopped (f : Fault)
  /-- Stopped by a refusal of the model. -/
  | declined (r : Refusal)
  deriving DecidableEq, Repr

/-- The way a HALTED state ended its run, told by `ERR_KIND` (R99). -/
def State.wayEnded (s : State) : RunEnd :=
  match s.errKind with
  | .none => .success s
  | .sourceUnavailable => .loadFailure s
  | .unknownOpcode => .executionError s
  | .invalidDestination => .executionError s
  | .invalidJumpTarget => .executionError s
  | .invalidOperand => .executionError s

/-- `Run()` (R98) under at most `fuel` steps (R100), from the state a reset left. -/
def runFuel : Nat → State → RunEnd
  | 0, s =>
    match s.runState with
    | .halted => s.wayEnded
    | .running => .outOfFuel s
  | n + 1, s =>
    match s.runState with
    | .halted => s.wayEnded
    | .running =>
      match step s with
      | .next t => runFuel n t
      | .fault f => .stopped f
      | .refused r => .declined r

/-- `Run()` (R98): reset, then the steps, under at most `fuel` of them (R100). -/
def State.run (fuel : Nat) (s : State) : RunEnd := runFuel fuel s.hostReset

end Sys2Proof.Machine
end

