-- ==== Sys2Proof/WellFormed.lean ====
section
/-! DEFINITION. Which terms of `Instr` some line decodes to (spec/30_encoding.md R47, R48, R54, R65). -/

namespace Sys2Proof

open Sys2Proof.Machine

/-- An operand some token resolves to: text is made of token bytes (R46) and is itself neither a register name nor
a literal in range (R58). -/
def Operand.wf : Operand → Bool
  | .reg _ => true
  | .imm _ => true
  | .text t => t.all isTokenByte && resolve t == .text t

/-- A PRT operand some token gives: text is made of token bytes and names no register (R59). -/
def PrtValue.wf : PrtValue → Bool
  | .reg _ => true
  | .text t => t.all isTokenByte && resolvePrt t == .text t

/-- The operands of format RS: both well formed, and the second absent where the first is (R48). -/
def rsWf (dst src : Operand) : Bool :=
  dst.wf && src.wf && (!dst.token.isEmpty || src.token.isEmpty)

/-- A well-formed instruction: one that some line decodes to. -/
def Instr.wf : Instr → Bool
  | .add dst src => rsWf dst src
  | .sub dst src => rsWf dst src
  | .shl dst src => rsWf dst src
  | .shr dst src => rsWf dst src
  | .set dst src => rsWf dst src
  | .and dst src => rsWf dst src
  | .or dst src => rsWf dst src
  | .j target => target.wf
  | .prt value => value.wf

/-- The instruction's canonical line fits in a line of the store (R5, R17). -/
def Instr.fits (i : Instr) : Prop := (encode i).length ≤ Config.lineMax

end Sys2Proof
end

