-- ==== Sys2Proof/Safety.lean ====
section
/-! DEFINITION. The terms claims are made in: the host's duty, the error a line's text raises, what the status group
says of a run, and states a program's text cannot tell apart. -/

namespace Sys2Proof.Machine

/-- The host's duty on the program store before it releases reset (spec/60_exceptions.md R122, R128). -/
def HostDuty (s : State) : Prop := s.prog.wf = true ∧ s.prog.bounded

/-- The state an error leaves (R112), field by field: the kind, the line's index and raw text, HALTED. -/
def errorState (s : State) (k : ErrKind) (line : Line) : State :=
  { s with errKind := k, errIndex := s.ip, errText := line, runState := .halted }

/-- The six delimiter bytes as R46 of spec/30_encoding.md lists them. -/
def delimBytes : List Byte := [0x09, 0x0A, 0x0B, 0x0C, 0x0D, 0x20]

/-- A run of delimiters, which may be empty (R47). -/
def IsDelims (ds : List Byte) : Prop := ∀ b ∈ ds, b ∈ delimBytes

/-- A token: not empty and without a delimiter (R47). -/
def IsToken (t : Token) : Prop := t ≠ [] ∧ ∀ b ∈ t, b ∉ delimBytes

/-- One or more ASCII decimal digits that denote `n` in base 10, most significant first (R56, R57). -/
def DigitsDenote (ds : List Byte) (n : Nat) : Prop :=
  ds ≠ [] ∧ (∀ b ∈ ds, 0x30 ≤ b.toNat ∧ b.toNat ≤ 0x39) ∧
    n = Nat.ofDigits 10 (ds.reverse.map fun b => b.toNat - 0x30)

/-- The shortest numeral of `n`: digits that denote it, with no leading zero but in "0" itself
(spec/42_prt.md R92). -/
def IsShortestNumeral (ds : List Byte) (n : Nat) : Prop :=
  DigitsDenote ds n ∧ (ds.head? = some 0x30 → ds = [0x30])

/-- What spec/40_alu.md R70 and the rule of one mnemonic say of a two-operand instruction: a line whose token 0 is
the mnemonic decodes to it with the other two tokens resolved; with a register destination and a register or literal
source it completes, the destination holding a value `F` relates to the old contents and the source, `ip` one further
and everything else as it was; on a line whose operand 1 is no register it takes InvalidDestination, and on one whose
operand 2 is unresolvable InvalidOperand. -/
def RSRule (mnemonic : Token) (mk : Operand → Operand → Instr) (F : Word → Word → Word → Prop) : Prop :=
  (∀ line t1 t2, (0x00 : Byte) ∉ line → tokenize line = ⟨mnemonic, t1, t2⟩ →
      decode line = .ok (mk (resolve t1) (resolve t2))) ∧
  (∀ (s : State) rd rs, ∃ r, F (s.readReg rd) (s.readReg rs) r ∧
      exec (mk (.reg rd) (.reg rs)) s = .next { s with regs := s.regs.set rd.val r, ip := s.ip + 1 }) ∧
  (∀ (s : State) rd v, ∃ r, F (s.readReg rd) v r ∧
      exec (mk (.reg rd) (.imm v)) s = .next { s with regs := s.regs.set rd.val r, ip := s.ip + 1 }) ∧
  (∀ (s : State) line dst src, s.fetch = some line → (∀ rd, dst ≠ .reg rd) →
      exec (mk dst src) s = .next (errorState s .invalidDestination line)) ∧
  (∀ (s : State) line rd t, s.fetch = some line →
      exec (mk (.reg rd) (.text t)) s = .next (errorState s .invalidOperand line))

/-- The error an instruction raises, read off its operands alone (spec/30_encoding.md R59, R60; R111). -/
def instrError (i : Instr) : Option ErrKind :=
  match i.rsOperands, i with
  | some (.reg _, .reg _), _ => none
  | some (.reg _, .imm _), _ => none
  | some (.reg _, .text _), _ => some .invalidOperand
  | some (_, _), _ => some .invalidDestination
  | none, .j (.reg _) => some .invalidJumpTarget
  | none, .j (.text _) => some .invalidOperand
  | none, _ => none

/-- The error a line raises when it is reached, by its text alone (R60, R114); a line that holds the byte 0x00 is no
line (R17) and has none. -/
def lineError (line : Line) : Option ErrKind :=
  match decode line with
  | .ok i => instrError i
  | .error .unknownOpcode => some .unknownOpcode
  | .error .padByte => none

/-- What the status group, `ip` and the output log say of a run at any moment (spec/10_state.md R18; R96, R99, R106,
R112): RUNNING without an error and without `Done`; ended with success past the end, `Done` once and last; halted by a
failed load in the reset state; or halted by the error the line at `ip` raises, that line reported and no `Done`. -/
def StatusInv (s : State) : Prop :=
  match s.runState, s.errKind with
  | .running, .none => s.errIndex = 0 ∧ s.errText = [] ∧ Event.done ∉ s.out
  | .running, _ => False
  | .halted, .none =>
    s.progLen ≤ s.ip.toNat ∧ s.errIndex = 0 ∧ s.errText = [] ∧
      ∃ before, s.out = before ++ [Event.done] ∧ Event.done ∉ before
  | .halted, .sourceUnavailable =>
    s.ip = 0 ∧ s.errIndex = 0 ∧ s.errText = [] ∧ s.out = [] ∧ ∀ i, s.readReg i = 0
  | .halted, k =>
    s.errIndex = s.ip ∧ s.fetch = some s.errText ∧ lineError s.errText = some k ∧ Event.done ∉ s.out

/-- Whether an event is `Done`, whatever text the other kind carries (R20). -/
def Event.isDone : Event → Bool
  | .prt _ => false
  | .done => true

/-- Two states alike in all but register contents and the texts printed: what control flow and errors may depend on
(spec/41_jump.md R87, R114). -/
def SameControl (s t : State) : Prop :=
  s.ip = t.ip ∧ s.runState = t.runState ∧ s.errKind = t.errKind ∧ s.errIndex = t.errIndex ∧
    s.errText = t.errText ∧ s.prog = t.prog ∧ s.loadOk = t.loadOk ∧
    s.out.map Event.isDone = t.out.map Event.isDone

/-- Two outcomes alike in the same sense: both a next state, states alike, or both the same stop. -/
def SameControlOutcome (a b : Result) : Prop :=
  match a, b with
  | .next s, .next t => SameControl s t
  | .fault f, .fault g => f = g
  | .refused q, .refused r => q = r
  | _, _ => False

end Sys2Proof.Machine
end

