-- ==== Sys2Proof/Certificates/Slice0/Obligations.lean ====
section
/-! DEFINITION. The statements for the provers, in the order of OBLIGATIONS.json: the text layer, the nine
instructions, errors, the step and the run, reset and the host's side. -/

open Sys2Proof Sys2Proof.Machine

-- ==== Text, decoder and encoder (spec/30_encoding.md) ====

/-- R48 with R46 and R47, for every line there is: a line of delimiters only, of one, of two, of three or more tokens.
The four shapes cover all lines; tokens after the third (`rest`) are ignored. -/
def Obligations.TokenizeTakesFirstThreeTokens : Prop :=
  ∀ (d0 d1 d2 d3 rest : List Byte) (t0 t1 t2 : Token),
    IsDelims d0 → IsDelims d1 → IsDelims d2 → IsDelims d3 → IsToken t0 → IsToken t1 → IsToken t2 →
      tokenize d0 = ⟨[], [], []⟩ ∧
      tokenize (d0 ++ t0 ++ d1) = ⟨t0, [], []⟩ ∧
      (d1 ≠ [] → tokenize (d0 ++ t0 ++ d1 ++ t1 ++ d2) = ⟨t0, t1, []⟩) ∧
      (d1 ≠ [] → d2 ≠ [] → (d3 ≠ [] ∨ rest = []) →
        tokenize (d0 ++ t0 ++ d1 ++ t1 ++ d2 ++ t2 ++ d3 ++ rest) = ⟨t0, t1, t2⟩)

/-- R51 over the mnemonics of R50: the row whose bytes the whole token equals, none otherwise, and then the line is
an UnknownOpcode. -/
def Obligations.LookupMatchesWholeMnemonic : Prop :=
  (∀ t : Token,
    (lookup t = some .add ↔ t = [0x41, 0x44, 0x44]) ∧ (lookup t = some .sub ↔ t = [0x53, 0x55, 0x42]) ∧
    (lookup t = some .shl ↔ t = [0x53, 0x48, 0x4C]) ∧ (lookup t = some .shr ↔ t = [0x53, 0x48, 0x52]) ∧
    (lookup t = some .set ↔ t = [0x53, 0x45, 0x54]) ∧ (lookup t = some .and ↔ t = [0x41, 0x4E, 0x44]) ∧
    (lookup t = some .or ↔ t = [0x4F, 0x52]) ∧ (lookup t = some .j ↔ t = [0x4A]) ∧
    (lookup t = some .prt ↔ t = [0x50, 0x52, 0x54]) ∧
    (lookup t = none ↔ t ∉ [[0x41, 0x44, 0x44], [0x53, 0x55, 0x42], [0x53, 0x48, 0x4C], [0x53, 0x48, 0x52],
      [0x53, 0x45, 0x54], [0x41, 0x4E, 0x44], [0x4F, 0x52], [0x4A], [0x50, 0x52, 0x54]])) ∧
  (∀ line : Line, (0x00 : Byte) ∉ line → lookup (tokenize line).t0 = none → decode line = .error .unknownOpcode)

/-- R55: register `i` exactly when the token has four bytes or more and the first four are its canonical name. -/
def Obligations.RegisterNameIsFirstFourBytes : Prop :=
  ∀ tok : Token,
    (∀ i : Reg, regMatch tok = some i ↔
      4 ≤ tok.length ∧ tok.take 4 = [0x52, 0x45, 0x47, BitVec.ofNat 8 (0x30 + i.val)]) ∧
    (regMatch tok = none ↔ ∀ i : Reg,
      ¬(4 ≤ tok.length ∧ tok.take 4 = [0x52, 0x45, 0x47, BitVec.ofNat 8 (0x30 + i.val)]))

/-- R57 with the grammar of R56: an optional sign, digits to the end of the token, and a value in range; no other
token has a value. -/
def Obligations.LiteralIsSignedDecimalInRange : Prop :=
  ∀ (tok : Token) (v : Word),
    litValue tok = some v ↔
      ∃ (sign ds : List Byte) (m : Nat) (z : Int),
        tok = sign ++ ds ∧ DigitsDenote ds m ∧
        ((sign = [0x2D] ∧ z = -(m : Int)) ∨ ((sign = [] ∨ sign = [0x2B]) ∧ z = (m : Int))) ∧
        -2147483648 ≤ z ∧ z ≤ 2147483647 ∧ v.toInt = z

/-- R54: register lookup first, then the literal, else unresolvable; and no token is both. -/
def Obligations.ResolveLooksUpRegistersFirst : Prop :=
  ∀ tok : Token,
    (∀ i, regMatch tok = some i → resolve tok = .reg i ∧ litValue tok = none) ∧
    (∀ v, litValue tok = some v → resolve tok = .imm v ∧ regMatch tok = none) ∧
    (regMatch tok = none → litValue tok = none → resolve tok = .text tok)

/-- R92: the shortest numeral of a value, a minus sign before it exactly when the value is negative, 1 to 11 bytes. -/
def Obligations.DecimalTextIsShortestNumeral : Prop :=
  ∀ v : Word,
    (0 ≤ v.toInt → IsShortestNumeral (dec v) v.toInt.toNat) ∧
    (v.toInt < 0 → ∃ ds, dec v = 0x2D :: ds ∧ IsShortestNumeral ds (-v.toInt).toNat) ∧
    1 ≤ (dec v).length ∧ (dec v).length ≤ 11

/-- What PRT prints of a register is a literal of that value (R57, R92). -/
def Obligations.DecimalTextReadsBack : Prop :=
  ∀ v : Word, litValue (dec v) = some v

/-- Every well-formed instruction comes back from its canonical line (R48, R51, R54, R64): no operand is lost. -/
def Obligations.DecodeEncodeRoundTrip : Prop :=
  ∀ i : Instr, i.wf = true → decode (encode i) = .ok i

/-- What the decoder answers is well formed, so the round trip is about every instruction a line can hold. -/
def Obligations.DecodedInstructionIsWellFormed : Prop :=
  ∀ (line : Line) (i : Instr), decode line = .ok i → i.wf = true

/-- The canonical line is a line of the store: no byte 0x00 and no byte 0x0A (R17, R64). -/
def Obligations.EncodedLineIsClean : Prop :=
  ∀ i : Instr, i.wf = true → lineOk (encode i) = true

/-- Lines written out byte by byte: `SET REG0 5`, `SUB REG2 -17`, `SHL REG10 1`, `SHR REG3 +4`, `AND REG8 1`,
`OR REG7 2147483648`, tab and spaces around `ADD REG1 REG0`, `J 3`, `PRT 007`, `PRT REG0x`, `add REG0 1` and the empty
line. R67 lists all of them but `SHR REG3 +4`, which rests on R56, and `PRT REG0x`, which rests on R55 and R91 (c).
THE MODEL'S FORM (log 10, DEDUCED), not the spec's: `AND REG8 1` and `OR REG7 2147483648`, which R67 writes as
Bad(InvalidDestination) and Bad(InvalidOperand), decode to their row's instruction with the unresolvable token kept,
and take those errors when executed. -/
def Obligations.SampleLinesDecode : Prop :=
  decode [0x53, 0x45, 0x54, 0x20, 0x52, 0x45, 0x47, 0x30, 0x20, 0x35] = .ok (.set (.reg 0) (.imm 5)) ∧
  decode [0x53, 0x55, 0x42, 0x20, 0x52, 0x45, 0x47, 0x32, 0x20, 0x2D, 0x31, 0x37] = .ok (.sub (.reg 2) (.imm (-17))) ∧
  decode [0x53, 0x48, 0x4C, 0x20, 0x52, 0x45, 0x47, 0x31, 0x30, 0x20, 0x31] = .ok (.shl (.reg 1) (.imm 1)) ∧
  decode [0x53, 0x48, 0x52, 0x20, 0x52, 0x45, 0x47, 0x33, 0x20, 0x2B, 0x34] = .ok (.shr (.reg 3) (.imm 4)) ∧
  decode [0x41, 0x4E, 0x44, 0x20, 0x52, 0x45, 0x47, 0x38, 0x20, 0x31] =
    .ok (.and (.text [0x52, 0x45, 0x47, 0x38]) (.imm 1)) ∧
  decode [0x4F, 0x52, 0x20, 0x52, 0x45, 0x47, 0x37, 0x20, 0x32, 0x31, 0x34, 0x37, 0x34, 0x38, 0x33, 0x36, 0x34, 0x38] =
    .ok (.or (.reg 7) (.text [0x32, 0x31, 0x34, 0x37, 0x34, 0x38, 0x33, 0x36, 0x34, 0x38])) ∧
  decode [0x20, 0x20, 0x41, 0x44, 0x44, 0x09, 0x52, 0x45, 0x47, 0x31, 0x20, 0x20, 0x20, 0x52, 0x45, 0x47, 0x30, 0x0D] =
    .ok (.add (.reg 1) (.reg 0)) ∧
  decode [0x4A, 0x20, 0x33] = .ok (.j (.imm 3)) ∧
  decode [0x50, 0x52, 0x54, 0x20, 0x30, 0x30, 0x37] = .ok (.prt (.text [0x30, 0x30, 0x37])) ∧
  decode [0x50, 0x52, 0x54, 0x20, 0x52, 0x45, 0x47, 0x30, 0x78] = .ok (.prt (.reg 0)) ∧
  decode [0x61, 0x64, 0x64, 0x20, 0x52, 0x45, 0x47, 0x30, 0x20, 0x31] = .error .unknownOpcode ∧
  decode [] = .error .unknownOpcode

/-- spec/20_memory.md R33: the slot of a line, its bytes, its padding, and the line read back from it. -/
def Obligations.SlotHoldsItsLine : Prop :=
  ∀ line : Line, lineOk line = true → line.length ≤ Config.lineMax →
    (slotOfLine line).length = Config.lineMax + 1 ∧
    (∀ k, k < line.length → (slotOfLine line)[k]? = (line)[k]?) ∧
    (∀ k, line.length ≤ k → k ≤ Config.lineMax → (slotOfLine line)[k]? = some 0x00) ∧
    lineOfSlot (slotOfLine line) = line

-- ==== The instructions (spec/40_alu.md, 41_jump.md, 42_prt.md) ====

/-- ADD (R71 over R70): the result is congruent to the exact sum modulo 2^32, which is `to_s32` of it (R6). -/
def Obligations.AddFollowsItsRule : Prop :=
  RSRule [0x41, 0x44, 0x44] .add fun a b r => (4294967296 : Int) ∣ r.toInt - (a.toInt + b.toInt)

/-- SUB (R72 over R70): the result is congruent to the exact difference modulo 2^32. -/
def Obligations.SubFollowsItsRule : Prop :=
  RSRule [0x53, 0x55, 0x42] .sub fun a b r => (4294967296 : Int) ∣ r.toInt - (a.toInt - b.toInt)

/-- SHL (R73 over R70): the exact product by a power of two, modulo 2^32, and the same in bits. -/
def Obligations.ShlFollowsItsRule : Prop :=
  RSRule [0x53, 0x48, 0x4C] .shl fun a b r =>
    ((4294967296 : Int) ∣ r.toInt - a.toInt * 2 ^ (b.toNat % 32)) ∧
    ∀ k, k < 32 → r.getLsbD k = (decide (b.toNat % 32 ≤ k) && a.getLsbD (k - b.toNat % 32))

/-- SHR (R74 over R70): the quotient rounded toward minus infinity, exactly, and the same in bits. -/
def Obligations.ShrFollowsItsRule : Prop :=
  RSRule [0x53, 0x48, 0x52] .shr fun a b r =>
    (r.toInt * 2 ^ (b.toNat % 32) ≤ a.toInt ∧ a.toInt < (r.toInt + 1) * 2 ^ (b.toNat % 32)) ∧
    ∀ k, k < 32 → r.getLsbD k = a.getLsbD (min (k + b.toNat % 32) 31)

/-- SET (R75 over R70). -/
def Obligations.SetFollowsItsRule : Prop :=
  RSRule [0x53, 0x45, 0x54] .set fun _ b r => r = b

/-- AND (R76 over R70), bit by bit. -/
def Obligations.AndFollowsItsRule : Prop :=
  RSRule [0x41, 0x4E, 0x44] .and fun a b r => ∀ k, k < 32 → r.getLsbD k = (a.getLsbD k && b.getLsbD k)

/-- OR (R77 over R70), bit by bit. -/
def Obligations.OrFollowsItsRule : Prop :=
  RSRule [0x4F, 0x52] .or fun a b r => ∀ k, k < 32 → r.getLsbD k = (a.getLsbD k || b.getLsbD k)

/-- J (R85): decoding from token 1 alone; a literal target replaces `ip` by its residue modulo 2^32 and nothing else
changes; a register is InvalidJumpTarget, any other token InvalidOperand. -/
def Obligations.JumpFollowsItsRule : Prop :=
  (∀ line t1 t2, (0x00 : Byte) ∉ line → tokenize line = ⟨[0x4A], t1, t2⟩ → decode line = .ok (.j (resolve t1))) ∧
  (∀ (s : State) v, ∃ a : LineIndex, ((4294967296 : Int) ∣ (a.toNat : Int) - v.toInt) ∧
    exec (.j (.imm v)) s = .next { s with ip := a }) ∧
  (∀ (s : State) line r, s.fetch = some line →
    exec (.j (.reg r)) s = .next (errorState s .invalidJumpTarget line)) ∧
  (∀ (s : State) line t, s.fetch = some line →
    exec (.j (.text t)) s = .next (errorState s .invalidOperand line))

/-- PRT (R90): decoding from token 1 alone; a register prints its value in decimal, any other token its own bytes;
one event, `ip` one further, and nothing else changes; it never fails. -/
def Obligations.PrintFollowsItsRule : Prop :=
  (∀ line t1 t2, (0x00 : Byte) ∉ line → tokenize line = ⟨[0x50, 0x52, 0x54], t1, t2⟩ →
    (∀ r, regMatch t1 = some r → decode line = .ok (.prt (.reg r))) ∧
    (regMatch t1 = none → decode line = .ok (.prt (.text t1)))) ∧
  (∀ (s : State) r, exec (.prt (.reg r)) s =
    .next { s with out := s.out ++ [.prt (dec (s.readReg r))], ip := s.ip + 1 }) ∧
  (∀ (s : State) t, exec (.prt (.text t)) s = .next { s with out := s.out ++ [.prt t], ip := s.ip + 1 })

/-- The frame of format RS (R11, R70, R112), completed or failed: no register but the destination, no event, no line
of the store; `ip` one further with the status group as it was, or the error entry. -/
def Obligations.TwoOperandFrame : Prop :=
  ∀ (i : Instr) (dst src : Operand) (s t : State), i.rsOperands = some (dst, src) → exec i s = .next t →
    (∀ r, dst ≠ .reg r → t.readReg r = s.readReg r) ∧ t.out = s.out ∧
    (∀ n, t.progRead n = s.progRead n) ∧ t.progLen = s.progLen ∧ t.loadOk = s.loadOk ∧
    ((t.ip = s.ip + 1 ∧ t.runState = s.runState ∧ t.errKind = s.errKind ∧ t.errIndex = s.errIndex ∧
        t.errText = s.errText) ∨
      (t.ip = s.ip ∧ (∀ r, t.readReg r = s.readReg r) ∧ t.runState = .halted ∧ t.errIndex = s.ip ∧
        s.fetch = some t.errText ∧ (t.errKind = .invalidDestination ∨ t.errKind = .invalidOperand)))

/-- The frame of J and PRT (R11, R85, R90): no register and no line of the store in any case; J produces no event and
touches the status group only to fail, PRT produces one event and never touches the status group. -/
def Obligations.JumpAndPrintFrame : Prop :=
  (∀ (target : Operand) (s t : State), exec (.j target) s = .next t →
    (∀ r, t.readReg r = s.readReg r) ∧ t.out = s.out ∧ (∀ n, t.progRead n = s.progRead n) ∧
    t.progLen = s.progLen ∧ t.loadOk = s.loadOk ∧
    ((t.runState = s.runState ∧ t.errKind = s.errKind ∧ t.errIndex = s.errIndex ∧ t.errText = s.errText) ∨
      (t.ip = s.ip ∧ t.runState = .halted ∧ t.errIndex = s.ip ∧ s.fetch = some t.errText ∧
        (t.errKind = .invalidJumpTarget ∨ t.errKind = .invalidOperand)))) ∧
  (∀ (value : PrtValue) (s t : State), exec (.prt value) s = .next t →
    (∀ r, t.readReg r = s.readReg r) ∧ (∃ text, t.out = s.out ++ [.prt text]) ∧
    (∀ n, t.progRead n = s.progRead n) ∧ t.progLen = s.progLen ∧ t.loadOk = s.loadOk ∧ t.ip = s.ip + 1 ∧
    t.runState = s.runState ∧ t.errKind = s.errKind ∧ t.errIndex = s.errIndex ∧ t.errText = s.errText)

/-- R79: both operands the same register see the old value in both roles. -/
def Obligations.SameRegisterSeesOldValue : Prop :=
  ∀ (s : State) (r : Reg),
    (∃ t, exec (.add (.reg r) (.reg r)) s = .next t ∧ (4294967296 : Int) ∣ (t.readReg r).toInt - 2 * (s.readReg r).toInt) ∧
    (∃ t, exec (.sub (.reg r) (.reg r)) s = .next t ∧ t.readReg r = 0) ∧
    (∃ t, exec (.shl (.reg r) (.reg r)) s = .next t ∧
      (4294967296 : Int) ∣ (t.readReg r).toInt - (s.readReg r).toInt * 2 ^ ((s.readReg r).toNat % 32)) ∧
    (∃ t, exec (.shr (.reg r) (.reg r)) s = .next t ∧
      (t.readReg r).toInt = Int.fdiv (s.readReg r).toInt (2 ^ ((s.readReg r).toNat % 32))) ∧
    (∃ t, exec (.set (.reg r) (.reg r)) s = .next t ∧ t.readReg r = s.readReg r) ∧
    (∃ t, exec (.and (.reg r) (.reg r)) s = .next t ∧ t.readReg r = s.readReg r) ∧
    (∃ t, exec (.or (.reg r) (.reg r)) s = .next t ∧ t.readReg r = s.readReg r)

/-- The identities R78 of spec/40_alu.md lists: SUB undoes ADD, and the operands that leave or clear a register. -/
def Obligations.ArithmeticIdentities : Prop :=
  ∀ (s : State) (r : Reg),
    (∀ v, ∃ t u, exec (.add (.reg r) (.imm v)) s = .next t ∧ exec (.sub (.reg r) (.imm v)) t = .next u ∧
      ∀ q, u.readReg q = s.readReg q) ∧
    (∀ i ∈ [Instr.shl (.reg r) (.imm 0), .shr (.reg r) (.imm 0), .add (.reg r) (.imm 0), .sub (.reg r) (.imm 0),
        .or (.reg r) (.imm 0), .and (.reg r) (.imm (-1))],
      ∃ t, exec i s = .next t ∧ ∀ q, t.readReg q = s.readReg q) ∧
    (∀ i ∈ [Instr.sub (.reg r) (.reg r), .and (.reg r) (.imm 0)], ∃ t, exec i s = .next t ∧ t.readReg r = 0)

/-- R86: what a jump does at each kind of target, for a store the host may load. Inside the program that line is
fetched next; at or past the end, and below zero, the next step halts with success; a jump to itself repeats for
ever. -/
def Obligations.JumpTargetsInsideAndOutside : Prop :=
  (∀ (s : State) (v : Word), s.runState = .running → s.prog.wf = true →
    ∃ t, exec (.j (.imm v)) s = .next t ∧
      (0 ≤ v.toInt → v.toInt < s.progLen →
        t.ip.toNat = v.toInt.toNat ∧ ∃ line, s.progRead v.toInt.toNat = some line ∧ t.fetch = some line) ∧
      (s.progLen ≤ v.toInt → t.ip.toNat = v.toInt.toNat ∧
        step t = .next { t with out := t.out ++ [.done], runState := .halted }) ∧
      (v.toInt < 0 → (t.ip.toNat : Int) = v.toInt + 4294967296 ∧ 2147483648 ≤ t.ip.toNat ∧
        step t = .next { t with out := t.out ++ [.done], runState := .halted })) ∧
  (∀ (s : State) (line : Line) (v : Word), s.runState = .running → s.fetch = some line →
    decode line = .ok (.j (.imm v)) → v = s.ip → ∀ n, stepN n s = .next s)

-- ==== Errors (spec/60_exceptions.md) ====

/-- Error entry (R112): the status group is written, and no register, not `ip`, no event and no line changes. -/
def Obligations.ErrorEntryWritesStatusOnly : Prop :=
  ∀ (k : ErrKind) (s : State) (line : Line), s.fetch = some line →
    ∃ t, raise k s = .next t ∧ t.errKind = k ∧ t.errIndex = s.ip ∧ t.errText = line ∧ t.runState = .halted ∧
      (∀ r, t.readReg r = s.readReg r) ∧ t.ip = s.ip ∧ t.out = s.out ∧ t.prog = s.prog ∧ t.loadOk = s.loadOk

/-- Where no line stands at `ip`, which StepInstr's precondition (R95) and R32 exclude, error entry faults: the
model's own choice (log 6), named for every instruction that could get there. -/
def Obligations.ErrorWithoutLineFaults : Prop :=
  ∀ (s : State), s.fetch = none →
    (∀ i k, instrError i = some k → exec i s = .fault .noLineAtIp) ∧
    (∀ i, instrError i = none → ∃ t, exec i s = .next t)

/-- R107: a line whose first token is no mnemonic halts the block with UnknownOpcode. -/
def Obligations.UnknownMnemonicHalts : Prop :=
  ∀ (s : State) (line : Line), s.runState = .running → s.fetch = some line → (0x00 : Byte) ∉ line →
    lookup (tokenize line).t0 = none → step s = .next (errorState s .unknownOpcode line)

/-- R111: the one error a line reports, in the order of evaluation; and where none applies the step completes and the
block is still RUNNING. -/
def Obligations.ErrorPriority : Prop :=
  ∀ (s : State) (line : Line), s.runState = .running → s.fetch = some line → (0x00 : Byte) ∉ line →
    ∀ (t0 t1 t2 : Token), tokenize line = ⟨t0, t1, t2⟩ →
      (lookup t0 = none → step s = .next (errorState s .unknownOpcode line)) ∧
      (∀ o, lookup t0 = some o → o ∈ [Opcode.add, .sub, .shl, .shr, .set, .and, .or] →
        ((∀ rd, resolve t1 ≠ .reg rd) → step s = .next (errorState s .invalidDestination line)) ∧
        ((∃ rd, resolve t1 = .reg rd) → resolve t2 = .text t2 →
          step s = .next (errorState s .invalidOperand line)) ∧
        ((∃ rd, resolve t1 = .reg rd) → resolve t2 ≠ .text t2 →
          ∃ t, step s = .next t ∧ t.runState = .running)) ∧
      (lookup t0 = some .j →
        ((∃ r, resolve t1 = .reg r) → step s = .next (errorState s .invalidJumpTarget line)) ∧
        (resolve t1 = .text t1 → step s = .next (errorState s .invalidOperand line)) ∧
        ((∃ v, resolve t1 = .imm v) → ∃ t, step s = .next t ∧ t.runState = .running)) ∧
      (lookup t0 = some .prt → ∃ t, step s = .next t ∧ t.runState = .running)

/-- R114 with R60: whether a line raises an error, and which, depends on its text alone. -/
def Obligations.ErrorDependsOnTextAlone : Prop :=
  ∀ (s : State) (line : Line), s.runState = .running → s.fetch = some line → (0x00 : Byte) ∉ line →
    (∀ k, lineError line = some k → step s = .next (errorState s k line)) ∧
    (lineError line = none → ∃ t, step s = .next t ∧ t.runState = .running ∧ t.errKind = s.errKind ∧
      t.errIndex = s.errIndex ∧ t.errText = s.errText)

/-- A stored line that holds the byte 0x00, which R17 excludes, stops the step: the model's own choice (log 7). -/
def Obligations.PadByteInLineFaults : Prop :=
  ∀ (s : State) (line : Line), s.runState = .running → s.fetch = some line → (0x00 : Byte) ∈ line →
    step s = .fault .malformedLine

/-- The codes of `RUN_STATE` and `ERR_KIND` on the status port (R18, R24, R105), and the port's other fields. -/
def Obligations.StatusPortShowsCodes : Prop :=
  ∀ s : State,
    s.statusPort.runState = (match s.runState with | .running => 0 | .halted => 1) ∧
    s.statusPort.errKind = (match s.errKind with
      | .none => 0 | .sourceUnavailable => 1 | .unknownOpcode => 2 | .invalidDestination => 3
      | .invalidJumpTarget => 4 | .invalidOperand => 5) ∧
    s.statusPort.errIndex = s.errIndex ∧ s.statusPort.errText = s.errText ∧ s.statusPort.regs = s.regs ∧
    s.statusPort.ip = s.ip

/-- The host's exit status (R121; the value 1 is the spec's decision D20): none while the block runs, 0 on success, 1
on a failed load or an execution error. -/
def Obligations.ExitStatusByErrorKind : Prop :=
  ∀ s : State,
    (s.runState = .running → s.exitStatus = none) ∧
    (s.runState = .halted → s.errKind = .none → s.exitStatus = some 0) ∧
    (s.runState = .halted → s.errKind ≠ .none → s.exitStatus = some 1)

-- ==== The step and the run (spec/43_executor.md) ====

/-- R95: a step at a line that decodes runs exactly the decoded instruction, and what decodes is well formed. The
model adds nothing around `exec`: the meanings move `ip`. -/
def Obligations.StepRunsDecodedInstruction : Prop :=
  ∀ (s : State) (line : Line) (i : Instr), s.runState = .running → s.fetch = some line → decode line = .ok i →
    step s = exec i s

/-- R96: at or past the end of the program the step is the halting transition. -/
def Obligations.HaltingTransitionPastTheEnd : Prop :=
  ∀ s : State, s.runState = .running → s.progLen ≤ s.ip.toNat →
    step s = .next { s with out := s.out ++ [.done], runState := .halted }

/-- R97: a HALTED block has no step; the model answers its fault `halted` (the model's own name, log 5). -/
def Obligations.HaltedBlockHasNoStep : Prop :=
  ∀ s : State, s.runState = .halted → step s = .fault .halted

/-- R135: a RUNNING block whose store the host loaded as R17 asks always has a next state. -/
def Obligations.RunningBlockAlwaysSteps : Prop :=
  ∀ s : State, s.runState = .running → s.prog.wf = true → ∃ t, step s = .next t

/-- R14 and R25: a step that leaves the block RUNNING advanced `ip` by one, without wrapping (R15), or executed a J
whose literal is the new `ip`; a step that halts it left `ip` as it was. -/
def Obligations.EveryStepMovesIpOnce : Prop :=
  ∀ s t : State, s.prog.wf = true → step s = .next t →
    (t.runState = .running →
      t.ip.toNat = s.ip.toNat + 1 ∨
        ∃ line v, s.fetch = some line ∧ decode line = .ok (.j (.imm v)) ∧ t.ip = v) ∧
    (t.runState = .halted → t.ip = s.ip)

/-- R11: a step changes at most one register cell, and only as the destination of a completed two-operand
instruction. -/
def Obligations.StepWritesOnlyTheDestination : Prop :=
  ∀ s t : State, step s = .next t → ∀ r, t.readReg r ≠ s.readReg r →
    (∃ line i src, s.fetch = some line ∧ decode line = .ok i ∧ i.rsOperands = some (.reg r, src)) ∧
    t.runState = .running ∧ ∀ q, q ≠ r → t.readReg q = s.readReg q

/-- R20: the log only grows, by one `Prt` for a PRT that completes and one `Done` for the halting transition; nothing
else produces an event, and an error none. -/
def Obligations.OutputLogGrowsByPrtAndDone : Prop :=
  ∀ s t : State, step s = .next t →
    (t.out = s.out ∧ (∃ line, s.fetch = some line ∧ ∀ v, decode line ≠ .ok (.prt v))) ∨
    (t.out = s.out ++ [.done] ∧ s.progLen ≤ s.ip.toNat ∧ t.runState = .halted ∧ t.errKind = s.errKind) ∨
    (∃ line v, s.fetch = some line ∧ decode line = .ok (.prt v) ∧ t.out = s.out ++ [.prt (s.prtText v)])

/-- R42: no step writes the program store or the `load_ok` input. -/
def Obligations.ProgramStoreIsImmutable : Prop :=
  ∀ (n : Nat) (s t : State), stepN n s = .next t → t.prog = s.prog ∧ t.loadOk = s.loadOk

/-- R99 with R18, R96, R106 and R112, as an invariant every step keeps: what the status group, `ip` and the log say of
a run. -/
def Obligations.StatusGroupInvariantKept : Prop :=
  ∀ s t : State, StatusInv s → step s = .next t → StatusInv t

/-- The invariant holds after every reset, with `load_ok` = 1 or 0 (R28), and in the model's reset state (log 2). -/
def Obligations.StatusGroupInvariantAtReset : Prop :=
  (∀ s : State, StatusInv s.hostReset) ∧ StatusInv State.reset

/-- The path a program takes is fixed by its text alone (R87, R102, R114): from states alike but for register contents
and printed text, any number of steps gives states alike in the same sense, or the same stop. -/
def Obligations.ControlFlowIgnoresRegisters : Prop :=
  ∀ (n : Nat) (s t : State), SameControl s t → SameControlOutcome (stepN n s) (stepN n t)

/-- R87: a cycle gone round completely repeats for ever: a run that comes back, still RUNNING, to an `ip` it had,
never halts. R101 (c) is stated in BackwardJumpWithNoWayOutNeverHalts (log 15). -/
def Obligations.CompletedCycleNeverHalts : Prop :=
  ∀ (k : Nat) (s t : State), 0 < k → s.runState = .running → stepN k s = .next t → t.runState = .running →
    t.ip = s.ip → ∀ n, ∃ u, stepN n s = .next u ∧ u.runState = .running

/-- R101 (c) and R133 (c) in the form R87 and R100 give them (log 15): once a J whose target is not above its own index
is reached, and every J from that target up to it leads back among those lines, the run never halts, unless a line on
the way fails first. The target is the 32-bit unsigned index, so a negative literal is no such target (R86, D7). -/
def Obligations.BackwardJumpWithNoWayOutNeverHalts : Prop :=
  ∀ (s : State) (line : Line) (v : Word), s.runState = .running → s.prog.wf = true → s.fetch = some line →
    decode line = .ok (.j (.imm v)) → v.toNat ≤ s.ip.toNat →
    (∀ n l w, v.toNat ≤ n → n ≤ s.ip.toNat → s.progRead n = some l → decode l = .ok (.j (.imm w)) →
      v.toNat ≤ w.toNat ∧ w.toNat ≤ s.ip.toNat) →
    ∀ n,
      (∃ t, stepN n s = .next t ∧ t.runState = .running ∧ v.toNat ≤ t.ip.toNat ∧ t.ip.toNat ≤ s.ip.toNat) ∨
      ∃ m t l k, m < n ∧ stepN m s = .next t ∧ t.runState = .running ∧ t.fetch = some l ∧ lineError l = some k ∧
        step t = .next (errorState t k l)

/-- R135 with R100, and R101 (b) for the jumps that are reached: a run halts within `PROG_LEN` + 1 steps, or it comes
back within `PROG_LEN` steps to an `ip` it had, by way of a J whose target, as the 32-bit unsigned index, is not above its own
index, and is endless. So a run that enters no cycle halts, whichever way its jumps go, as R95, R96 and R86 say;
against the letter of R101 (c) that is the model's reading (log 15, DEDUCED). -/
def Obligations.RunHaltsOrRepeatsABackwardJump : Prop :=
  ∀ s : State, s.runState = .running → s.prog.wf = true →
    (∃ k t, k ≤ s.progLen + 1 ∧ stepN k s = .next t ∧ t.runState = .halted) ∨
    ∃ i m j t u w line v, i ≤ m ∧ m < j ∧ j ≤ s.progLen ∧ stepN i s = .next t ∧ stepN m s = .next u ∧
      stepN j s = .next w ∧ w.runState = .running ∧ w.ip = t.ip ∧
      u.fetch = some line ∧ decode line = .ok (.j (.imm v)) ∧ v.toNat ≤ u.ip.toNat ∧
      ∀ n, ∃ x, stepN n s = .next x ∧ x.runState = .running

/-- R101 (a) and (b): a program whose jumps all go forward halts after at most as many instruction steps as lines are
left, and the step after them is not needed where an error came first. Every J line, reached or not, is asked to go
forward. The target is read as the 32-bit unsigned index, so a J with a negative literal counts as going forward: R101
does not say so; it rests on R86 (D7), by which it halts with success, and is the model's reading (log 15, DEDUCED). -/
def Obligations.ForwardJumpsHaltWithinProgLen : Prop :=
  ∀ s : State, s.runState = .running → s.prog.wf = true →
    (∀ n line v, s.progRead n = some line → decode line = .ok (.j (.imm v)) → n < v.toNat) →
    ∃ k t, k ≤ s.progLen - s.ip.toNat ∧ stepN (k + 1) s = .next t ∧ t.runState = .halted

/-- R101 (a): with no J at all, a run that meets no error takes exactly the lines that are left, then the halting
transition, and ends just past the last line. -/
def Obligations.StraightLineRunsEveryLine : Prop :=
  ∀ s : State, s.runState = .running → s.prog.wf = true → s.ip.toNat ≤ s.progLen →
    (∀ line ∈ s.prog, lookup (tokenize line).t0 ≠ some .j ∧ lineError line = none) →
    ∃ t u, stepN (s.progLen - s.ip.toNat) s = .next t ∧ t.runState = .running ∧ t.ip.toNat = s.progLen ∧
      step t = .next u ∧ u.runState = .halted ∧ u.errKind = s.errKind

-- ==== Reset and the host's side (spec/10_state.md, 70_reset_and_hazards.md) ====

/-- `Reset()` (R125): every register 0, `ip` 0, the error report cleared, the log empty, RUNNING or HALTED with
SourceUnavailable by `load_ok`; the program store untouched, and nothing of the earlier run visible. -/
def Obligations.ResetSetsEveryField : Prop :=
  (∀ s : State,
    (∀ r, s.hostReset.readReg r = 0) ∧ s.hostReset.ip = 0 ∧ s.hostReset.errIndex = 0 ∧ s.hostReset.errText = [] ∧
    s.hostReset.out = [] ∧ s.hostReset.prog = s.prog ∧
    (s.loadOk = true → s.hostReset.runState = .running ∧ s.hostReset.errKind = .none) ∧
    (s.loadOk = false → s.hostReset.runState = .halted ∧ s.hostReset.errKind = .sourceUnavailable)) ∧
  (∀ s t : State, s.prog = t.prog → s.loadOk = t.loadOk → s.hostReset = t.hostReset)

/-- The state right after reset (R12, R13, R28): registers and `ip` 0, RUNNING, no error, log empty; the empty store
and `load_ok` = 1 are the model's choice (log 2). -/
def Obligations.ResetStateHasSpecValues : Prop :=
  (∀ r, State.reset.readReg r = 0) ∧ State.reset.ip = 0 ∧ State.reset.runState = .running ∧
    State.reset.errKind = .none ∧ State.reset.errIndex = 0 ∧ State.reset.errText = [] ∧ State.reset.out = [] ∧
    State.reset.prog = [] ∧ State.reset.loadOk = true

/-- R106: after a failed load the block comes out of reset HALTED with SourceUnavailable and never steps. -/
def Obligations.FailedLoadNeverRuns : Prop :=
  ∀ (s : State) (m : Memory),
    ((s.hostLoad m false).hostReset).runState = .halted ∧
    ((s.hostLoad m false).hostReset).errKind = .sourceUnavailable ∧
    (∀ r, ((s.hostLoad m false).hostReset).readReg r = 0) ∧ ((s.hostLoad m false).hostReset).ip = 0 ∧
    ((s.hostLoad m false).hostReset).out = [] ∧ ∀ t, step ((s.hostLoad m false).hostReset) ≠ .next t

/-- R127: after a load and a reset the first instruction executed is line 0, and an empty program halts with success
at once. -/
def Obligations.FirstStepIsLineZero : Prop :=
  ∀ (s : State) (m : Memory),
    (∀ line, m[0]? = some line →
      ((s.hostLoad m true).hostReset).fetch = some line ∧ ((s.hostLoad m true).hostReset).runState = .running ∧
      ∀ i, decode line = .ok i → step ((s.hostLoad m true).hostReset) = exec i ((s.hostLoad m true).hostReset)) ∧
    (m = [] → ∃ t, step ((s.hostLoad m true).hostReset) = .next t ∧ t.runState = .halted ∧ t.errKind = .none ∧
      t.out = [.done])

/-- A table word that decodes (R66; the model's reading of the words and its stand-in for the load are log 3 and
log 4) is what the very next step runs, whatever the state was. -/
def Obligations.TableWordRunsNext : Prop :=
  ∀ (s : State) (nbits w : Nat) (i : Instr), decodeTableWord nbits w = some i →
    step (s.withFetchWord nbits w) = exec i (s.withFetchWord nbits w)
end

