-- ==== Sys2Proof/Laws/State.lean ====
section
/-! SUPPORT. The small lemmas of the state: one per field per update, and reading a register after a write. -/

namespace Sys2Proof.Machine

variable (s : State) (i j : Reg) (v : Word) (a : LineIndex) (e : Event) (k : ErrKind) (line : Line)

theorem State.readReg_eq : s.readReg i = s.regs[i.val] := rfl

@[simp] theorem State.readReg_writeReg_same : (s.writeReg i v).readReg i = v := by
  simp [State.readReg, State.writeReg]

@[simp] theorem State.readReg_writeReg_of_ne (h : i ≠ j) : (s.writeReg i v).readReg j = s.readReg j := by
  have h' : i.val ≠ j.val := fun e => h (Fin.ext e)
  simp [State.readReg, State.writeReg, h']

theorem State.readReg_writeReg : (s.writeReg i v).readReg j = if i = j then v else s.readReg j := by
  by_cases h : i = j
  · subst h; simp
  · simp [h]

@[simp] theorem State.writeReg_ip : (s.writeReg i v).ip = s.ip := rfl
@[simp] theorem State.writeReg_runState : (s.writeReg i v).runState = s.runState := rfl
@[simp] theorem State.writeReg_errKind : (s.writeReg i v).errKind = s.errKind := rfl
@[simp] theorem State.writeReg_errIndex : (s.writeReg i v).errIndex = s.errIndex := rfl
@[simp] theorem State.writeReg_errText : (s.writeReg i v).errText = s.errText := rfl
@[simp] theorem State.writeReg_out : (s.writeReg i v).out = s.out := rfl
@[simp] theorem State.writeReg_prog : (s.writeReg i v).prog = s.prog := rfl
@[simp] theorem State.writeReg_loadOk : (s.writeReg i v).loadOk = s.loadOk := rfl

@[simp] theorem State.setIp_regs : (s.setIp a).regs = s.regs := rfl
@[simp] theorem State.setIp_ip : (s.setIp a).ip = a := rfl
@[simp] theorem State.setIp_runState : (s.setIp a).runState = s.runState := rfl
@[simp] theorem State.setIp_errKind : (s.setIp a).errKind = s.errKind := rfl
@[simp] theorem State.setIp_errIndex : (s.setIp a).errIndex = s.errIndex := rfl
@[simp] theorem State.setIp_errText : (s.setIp a).errText = s.errText := rfl
@[simp] theorem State.setIp_out : (s.setIp a).out = s.out := rfl
@[simp] theorem State.setIp_prog : (s.setIp a).prog = s.prog := rfl
@[simp] theorem State.setIp_loadOk : (s.setIp a).loadOk = s.loadOk := rfl
@[simp] theorem State.readReg_setIp : (s.setIp a).readReg i = s.readReg i := rfl

@[simp] theorem State.advanceIp_regs : s.advanceIp.regs = s.regs := rfl
@[simp] theorem State.advanceIp_ip : s.advanceIp.ip = s.ip + 1 := rfl
@[simp] theorem State.advanceIp_runState : s.advanceIp.runState = s.runState := rfl
@[simp] theorem State.advanceIp_errKind : s.advanceIp.errKind = s.errKind := rfl
@[simp] theorem State.advanceIp_errIndex : s.advanceIp.errIndex = s.errIndex := rfl
@[simp] theorem State.advanceIp_errText : s.advanceIp.errText = s.errText := rfl
@[simp] theorem State.advanceIp_out : s.advanceIp.out = s.out := rfl
@[simp] theorem State.advanceIp_prog : s.advanceIp.prog = s.prog := rfl
@[simp] theorem State.advanceIp_loadOk : s.advanceIp.loadOk = s.loadOk := rfl
@[simp] theorem State.readReg_advanceIp : s.advanceIp.readReg i = s.readReg i := rfl

@[simp] theorem State.emit_regs : (s.emit e).regs = s.regs := rfl
@[simp] theorem State.emit_ip : (s.emit e).ip = s.ip := rfl
@[simp] theorem State.emit_runState : (s.emit e).runState = s.runState := rfl
@[simp] theorem State.emit_errKind : (s.emit e).errKind = s.errKind := rfl
@[simp] theorem State.emit_errIndex : (s.emit e).errIndex = s.errIndex := rfl
@[simp] theorem State.emit_errText : (s.emit e).errText = s.errText := rfl
@[simp] theorem State.emit_out : (s.emit e).out = s.out ++ [e] := rfl
@[simp] theorem State.emit_prog : (s.emit e).prog = s.prog := rfl
@[simp] theorem State.emit_loadOk : (s.emit e).loadOk = s.loadOk := rfl
@[simp] theorem State.readReg_emit : (s.emit e).readReg i = s.readReg i := rfl

@[simp] theorem State.withError_regs : (s.withError k line).regs = s.regs := rfl
@[simp] theorem State.withError_ip : (s.withError k line).ip = s.ip := rfl
@[simp] theorem State.withError_runState : (s.withError k line).runState = .halted := rfl
@[simp] theorem State.withError_errKind : (s.withError k line).errKind = k := rfl
@[simp] theorem State.withError_errIndex : (s.withError k line).errIndex = s.ip := rfl
@[simp] theorem State.withError_errText : (s.withError k line).errText = line := rfl
@[simp] theorem State.withError_out : (s.withError k line).out = s.out := rfl
@[simp] theorem State.withError_prog : (s.withError k line).prog = s.prog := rfl
@[simp] theorem State.withError_loadOk : (s.withError k line).loadOk = s.loadOk := rfl
@[simp] theorem State.readReg_withError : (s.withError k line).readReg i = s.readReg i := rfl

@[simp] theorem State.halt_regs : s.halt.regs = s.regs := rfl
@[simp] theorem State.halt_ip : s.halt.ip = s.ip := rfl
@[simp] theorem State.halt_runState : s.halt.runState = .halted := rfl
@[simp] theorem State.halt_errKind : s.halt.errKind = s.errKind := rfl
@[simp] theorem State.halt_errIndex : s.halt.errIndex = s.errIndex := rfl
@[simp] theorem State.halt_errText : s.halt.errText = s.errText := rfl
@[simp] theorem State.halt_out : s.halt.out = s.out ++ [.done] := rfl
@[simp] theorem State.halt_prog : s.halt.prog = s.prog := rfl
@[simp] theorem State.halt_loadOk : s.halt.loadOk = s.loadOk := rfl
@[simp] theorem State.readReg_halt : s.halt.readReg i = s.readReg i := rfl

/-- Two states are equal when their fields are, the register cells read one by one. -/
theorem State.ext_of_fields {s t : State} (hr : ∀ i, s.readReg i = t.readReg i) (hip : s.ip = t.ip)
    (hrun : s.runState = t.runState) (hk : s.errKind = t.errKind) (hx : s.errIndex = t.errIndex)
    (ht : s.errText = t.errText) (ho : s.out = t.out) (hp : s.prog = t.prog) (hl : s.loadOk = t.loadOk) : s = t := by
  obtain ⟨r, ip, rs, ek, ei, et, o, p, l⟩ := s
  obtain ⟨r', ip', rs', ek', ei', et', o', p', l'⟩ := t
  have h : r = r' := by
    apply Vector.ext
    intro n hn
    exact hr ⟨n, hn⟩
  simp_all

/-- The state after reset is the host's reset of a block with an empty store and `load_ok` = 1 (log 2). -/
theorem State.reset_eq_hostReset : State.reset = (State.reset.hostLoad [] true).hostReset := rfl

end Sys2Proof.Machine
end

