-- ==== Sys2Proof/Laws/Ops.lean ====
section
/-! SUPPORT. What each shared operation can do, said once: error entry, the execution of format RS, the meanings, the
step; and that the operations on the program store keep its form. -/

namespace Sys2Proof.Machine

/-- The fetch finds a line exactly where `ip` is below `PROG_LEN` (R95, R96). -/
theorem State.fetch_isSome_iff (s : State) : s.fetch.isSome ↔ s.ip.toNat < s.progLen := by
  simp [State.fetch, State.progRead, State.progLen]

theorem State.fetch_eq_none_iff (s : State) : s.fetch = none ↔ s.progLen ≤ s.ip.toNat := by
  simp [State.fetch, State.progRead, State.progLen]

/-- The line fetched is a line of the store. -/
theorem State.mem_of_fetch {s : State} {line : Line} (h : s.fetch = some line) : line ∈ s.prog :=
  List.mem_of_getElem? h

/-- Error entry where a line stands at `ip` (R112). -/
theorem raise_of_fetch {s : State} {line : Line} (k : ErrKind) (h : s.fetch = some line) :
    raise k s = .next (s.withError k line) := by
  simp [raise, h]

/-- All that error entry can answer as a next state. -/
theorem raise_next {k : ErrKind} {s t : State} (h : raise k s = .next t) :
    ∃ line, s.fetch = some line ∧ t = s.withError k line := by
  unfold raise at h
  split at h
  · next line hl => exact ⟨line, hl, by simpa using h.symm⟩
  · cases h

/-- The register a form-RS destination names (R59). -/
theorem destOf_eq_some {o : Operand} {rd : Reg} : destOf o = some rd ↔ o = .reg rd := by
  cases o <;> simp [destOf]

/-- An operand 2 without a value is unresolvable text (R59). -/
theorem State.sourceValue_eq_none {s : State} {o : Operand} : s.sourceValue o = none ↔ ∃ t, o = .text t := by
  cases o <;> simp [State.sourceValue]

/-- A completed format-RS instruction (R70). -/
theorem execRS_of_source {f : Word → Word → Word} {rd : Reg} {src : Operand} {s : State} {b : Word}
    (h : s.sourceValue src = some b) :
    execRS f (.reg rd) src s = .next (s.writeReg rd (f (s.readReg rd) b)).advanceIp := by
  simp [execRS, destOf, h]

/-- All that `ExecRS` can answer as a next state (R70): the write and the advance, or the error entry. -/
theorem execRS_next {f : Word → Word → Word} {dst src : Operand} {s t : State}
    (h : execRS f dst src s = .next t) :
    (∃ rd b, dst = .reg rd ∧ s.sourceValue src = some b ∧
        t = (s.writeReg rd (f (s.readReg rd) b)).advanceIp) ∨
      (∃ k line, s.fetch = some line ∧ t = s.withError k line ∧
        (k = .invalidDestination ∨ k = .invalidOperand)) := by
  unfold execRS at h
  split at h
  · obtain ⟨line, hl, rfl⟩ := raise_next h
    exact .inr ⟨_, line, hl, rfl, .inl rfl⟩
  · next rd hd =>
    split at h
    · obtain ⟨line, hl, rfl⟩ := raise_next h
      exact .inr ⟨_, line, hl, rfl, .inr rfl⟩
    · next b hb => exact .inl ⟨rd, b, destOf_eq_some.mp hd, hb, by simpa using h.symm⟩

/-- The function of a format-RS instruction, and SET's for the rest. -/
def Instr.datapath : Instr → Word → Word → Word
  | .add _ _ => fAdd
  | .sub _ _ => fSub
  | .shl _ _ => fShl
  | .shr _ _ => fShr
  | .set _ _ => fSet
  | .and _ _ => fAnd
  | .or _ _ => fOr
  | .j _ => fSet
  | .prt _ => fSet

/-- The meaning of a format-RS instruction is `ExecRS` with its function (R95). -/
theorem exec_eq_execRS {i : Instr} {dst src : Operand} (h : i.rsOperands = some (dst, src)) (s : State) :
    exec i s = execRS (Instr.datapath i) dst src s := by
  cases i <;> simp [Instr.rsOperands] at h <;> obtain ⟨rfl, rfl⟩ := h <;> rfl

/-- All that a meaning can answer as a next state: a write and an advance, a jump, an event and an advance, or the
error entry of the error its operands give. -/
theorem exec_next {i : Instr} {s t : State} (h : exec i s = .next t) :
    (∃ rd src b, i.rsOperands = some (.reg rd, src) ∧ s.sourceValue src = some b ∧
        t = (s.writeReg rd (Instr.datapath i (s.readReg rd) b)).advanceIp ∧ instrError i = none) ∨
      (∃ v, i = .j (.imm v) ∧ t = s.setIp (toU32 v.toInt)) ∨
      (∃ v, i = .prt v ∧ t = (s.emit (.prt (s.prtText v))).advanceIp) ∨
      (∃ k line, instrError i = some k ∧ s.fetch = some line ∧ t = s.withError k line) := by
  rcases hrs : i.rsOperands with _ | ⟨dst, src⟩
  · cases i with
    | j target =>
      cases target with
      | reg r =>
        obtain ⟨line, hl, rfl⟩ := raise_next (k := .invalidJumpTarget) h
        exact .inr (.inr (.inr ⟨_, line, rfl, hl, rfl⟩))
      | imm v => exact .inr (.inl ⟨v, rfl, by simpa [exec, execJ] using h.symm⟩)
      | text x =>
        obtain ⟨line, hl, rfl⟩ := raise_next (k := .invalidOperand) h
        exact .inr (.inr (.inr ⟨_, line, rfl, hl, rfl⟩))
    | prt v => exact .inr (.inr (.inl ⟨v, rfl, by simpa [exec, execPrt] using h.symm⟩))
    | _ => simp [Instr.rsOperands] at hrs
  · rw [exec_eq_execRS hrs] at h
    cases dst with
    | reg rd =>
      cases hb : s.sourceValue src with
      | some b =>
        refine .inl ⟨rd, src, b, rfl, hb, ?_, ?_⟩
        · rw [execRS_of_source hb] at h
          simpa using h.symm
        · cases src <;> simp_all [instrError, State.sourceValue]
      | none =>
        obtain ⟨x, rfl⟩ := State.sourceValue_eq_none.mp hb
        have h' : raise .invalidOperand s = .next t := by simpa [execRS, destOf, State.sourceValue] using h
        obtain ⟨line, hl, rfl⟩ := raise_next h'
        exact .inr (.inr (.inr ⟨_, line, by simp [instrError, hrs], hl, rfl⟩))
    | imm v =>
      obtain ⟨line, hl, rfl⟩ := raise_next (k := .invalidDestination) h
      exact .inr (.inr (.inr ⟨_, line, by simp [instrError, hrs], hl, rfl⟩))
    | text x =>
      obtain ⟨line, hl, rfl⟩ := raise_next (k := .invalidDestination) h
      exact .inr (.inr (.inr ⟨_, line, by simp [instrError, hrs], hl, rfl⟩))

/-- All that a step can answer as a next state (R98): it was RUNNING, and it halted past the end, took the error of
the line at `ip`, or completed the instruction of that line. -/
theorem step_next {s t : State} (h : step s = .next t) :
    s.runState = .running ∧
      ((s.fetch = none ∧ t = s.halt) ∨
        (∃ line k, s.fetch = some line ∧ lineError line = some k ∧ t = s.withError k line) ∨
        (∃ line i, s.fetch = some line ∧ decode line = .ok i ∧ lineError line = none ∧ exec i s = .next t ∧
          t.runState = .running)) := by
  unfold step at h
  split at h
  · cases h
  · next hrun =>
    refine ⟨hrun, ?_⟩
    split at h
    · next line hl =>
      refine .inr ?_
      unfold stepLine at h
      split at h
      · next i hd =>
        rcases exec_next h with ⟨rd, src, b, hrs, hb, rfl, he⟩ | ⟨v, rfl, rfl⟩ | ⟨v, rfl, rfl⟩ | ⟨k, line', he, hl', rfl⟩
        · exact .inr ⟨line, i, hl, hd, by simp [lineError, hd, he], h, by simp [hrun]⟩
        · exact .inr ⟨line, _, hl, hd, by simp [lineError, hd, instrError, Instr.rsOperands], h, by simp [hrun]⟩
        · exact .inr ⟨line, _, hl, hd, by simp [lineError, hd, instrError, Instr.rsOperands], h, by simp [hrun]⟩
        · rw [hl] at hl'
          cases hl'
          exact .inl ⟨line, k, hl, by simp [lineError, hd, he], rfl⟩
      · next hd =>
        obtain ⟨line', hl', rfl⟩ := raise_next h
        rw [hl] at hl'
        cases hl'
        exact .inl ⟨line, _, hl, by simp [lineError, hd], rfl⟩
      · cases h
    · next hn => exact .inl ⟨hn, by simpa using h.symm⟩

/-- The OPEN `PROG_MAX` lies below the cap R5 sets for every implementation. -/
theorem Config.progMax_le_progCap : Config.progMax ≤ Config.progCap := Nat.le_of_lt_succ Config.progMaxFin.isLt

/-- Putting a line keeps the form of the store while the index is one a store may have. -/
theorem Memory.putLine_lines (m : Memory) (n : Nat) (line : Line) (hm : m.all lineOk = true)
    (hl : lineOk line = true) : (Memory.putLine m n line).all lineOk = true := by
  induction m, n, line using Memory.putLine.induct with
  | case1 => simp [Memory.putLine, hl]
  | case2 n line ih => simpa [Memory.putLine, lineOk] using ih (by simp) hl
  | case3 => simp_all [Memory.putLine]
  | case4 l m n line ih => simp_all [Memory.putLine]

/-- The length of the store after a line is put. -/
theorem Memory.putLine_length (m : Memory) (n : Nat) (line : Line) :
    (Memory.putLine m n line).length = max m.length (n + 1) := by
  induction m, n, line using Memory.putLine.induct with
  | case1 => simp [Memory.putLine]
  | case2 n line ih => simp only [Memory.putLine, List.length_cons, ih, List.length_nil]; omega
  | case3 => simp [Memory.putLine]
  | case4 l m n line ih => simp only [Memory.putLine, List.length_cons, ih]; omega

/-- The line put is the line read. -/
theorem Memory.putLine_read (m : Memory) (n : Nat) (line : Line) : (Memory.putLine m n line)[n]? = some line := by
  induction m, n, line using Memory.putLine.induct with
  | case1 => rfl
  | case2 n line ih => simpa [Memory.putLine] using ih
  | case3 => rfl
  | case4 l m n line ih => simpa [Memory.putLine] using ih

/-- A line below the store's end, other than the one put, reads as before. -/
theorem Memory.putLine_read_of_ne (m : Memory) (n p : Nat) (line : Line) (h : p ≠ n) (hp : p < m.length) :
    (Memory.putLine m n line)[p]? = m[p]? := by
  induction m, n, line using Memory.putLine.induct generalizing p with
  | case1 => simp at hp
  | case2 n line ih => simp at hp
  | case3 l m line => cases p with
    | zero => exact absurd rfl h
    | succ p => rfl
  | case4 l m n line ih => cases p with
    | zero => rfl
    | succ p => simpa [Memory.putLine] using ih p (by omega) (by simpa using hp)

/-- Putting a clean line below the cap keeps the store's form. -/
theorem Memory.putLine_wf {m : Memory} {n : Nat} {line : Line} (hm : m.wf = true) (hn : n < Config.progCap)
    (hl : lineOk line = true) : (Memory.putLine m n line).wf = true := by
  simp only [Memory.wf, Bool.and_eq_true, decide_eq_true_eq] at hm ⊢
  refine ⟨?_, Memory.putLine_lines m n line hm.2 hl⟩
  rw [Memory.putLine_length]
  omega

/-- The host's load keeps the form of the store it is given. -/
theorem State.hostLoad_wf {s : State} {m : Memory} {ok : Bool} (h : m.wf = true) : (s.hostLoad m ok).prog.wf = true := h

/-- A reset keeps the program store (R125). -/
@[simp] theorem State.hostReset_prog (s : State) : s.hostReset.prog = s.prog := rfl

/-- The store after reset has its form. -/
theorem State.reset_prog_wf : State.reset.prog.wf = true := by decide

/-- `stepN` is the host's run of this machine. -/
theorem stepN_eq_run (n : Nat) (s : State) : stepN n s = Host.Core.run Sys2Proof.core n s := by
  induction n generalizing s with
  | zero => rfl
  | succ n ih =>
    cases h : step s with
    | next t =>
      have h' : Sys2Proof.core.step s = .next t := h
      simpa [stepN, Host.Core.run, h, h'] using ih t
    | fault f =>
      have h' : Sys2Proof.core.step s = .fault f := h
      simp [stepN, Host.Core.run, h, h']
      rfl
    | refused r =>
      have h' : Sys2Proof.core.step s = .refused r := h
      simp [stepN, Host.Core.run, h, h']
      rfl

end Sys2Proof.Machine
end

