-- ==== Sys2Proof/Laws/Text.lean ====
section
/-! SUPPORT. The small lemmas of the tokenizer and of decimal text. -/

namespace Sys2Proof.Machine

/-- Bytes of a token are taken up whole (R47). -/
theorem tokensFrom_append {tok : Token} (h : ∀ b ∈ tok, isDelim b = false) (cur : Token) (rest : List Byte) :
    tokensFrom cur (tok ++ rest) = tokensFrom (cur ++ tok) rest := by
  induction tok generalizing cur with
  | nil => simp
  | cons b bs ih =>
    have hb : isDelim b = false := h b (by simp)
    have hbs : ∀ c ∈ bs, isDelim c = false := fun c hc => h c (by simp [hc])
    simp [tokensFrom, hb, ih hbs]

/-- A delimiter ends the token begun (R47). -/
theorem tokensFrom_delim {d : Byte} (hd : isDelim d = true) {cur : Token} (hc : cur ≠ []) (rest : List Byte) :
    tokensFrom cur (d :: rest) = cur :: tokensFrom [] rest := by
  simp [tokensFrom, hd, hc]

/-- A delimiter where no token has begun carries no meaning (R47). -/
theorem tokensFrom_nil_delim {d : Byte} (hd : isDelim d = true) (rest : List Byte) :
    tokensFrom [] (d :: rest) = tokensFrom [] rest := by
  simp [tokensFrom, hd]

/-- Any number of delimiters before the first token carries no meaning (R47). -/
theorem tokensOf_delims {ds : List Byte} (h : ∀ d ∈ ds, isDelim d = true) (rest : List Byte) :
    tokensOf (ds ++ rest) = tokensOf rest := by
  induction ds with
  | nil => rfl
  | cons d ds ih =>
    have hd : isDelim d = true := h d (by simp)
    simpa [tokensOf, tokensFrom_nil_delim hd] using ih fun e he => h e (by simp [he])

/-- A token that a delimiter follows is the first token, and the rest follows (R47). -/
theorem tokensOf_token_delim {tok : Token} (hne : tok ≠ []) (h : ∀ b ∈ tok, isDelim b = false) {d : Byte}
    (hd : isDelim d = true) (rest : List Byte) : tokensOf (tok ++ d :: rest) = tok :: tokensOf rest := by
  rw [tokensOf, tokensFrom_append h, List.nil_append, tokensFrom_delim hd hne]
  rfl

/-- A line that is one token (R47). -/
theorem tokensOf_token {tok : Token} (hne : tok ≠ []) (h : ∀ b ∈ tok, isDelim b = false) : tokensOf tok = [tok] := by
  have h' := tokensFrom_append h [] []
  simp only [List.append_nil, List.nil_append] at h'
  rw [tokensOf, h']
  simp [tokensFrom, hne]

/-- The tokens of a line are not empty and hold only bytes of the line that are no delimiters (R47). -/
theorem tokensFrom_bytes (cur : Token) (line : List Byte) (hcur : ∀ b ∈ cur, isDelim b = false) :
    ∀ t ∈ tokensFrom cur line, t ≠ [] ∧ ∀ b ∈ t, isDelim b = false ∧ (b ∈ cur ∨ b ∈ line) := by
  induction line generalizing cur with
  | nil =>
    intro t ht
    by_cases hc : cur = []
    · simp [tokensFrom, hc] at ht
    · have hne : cur.isEmpty = false := by simpa using hc
      have hte : t = cur := by simpa [tokensFrom, hne] using ht
      subst hte
      exact ⟨hc, fun b hb => ⟨hcur b hb, .inl hb⟩⟩
  | cons c line ih =>
    intro t ht
    by_cases hd : isDelim c = true
    · by_cases hc : cur = []
      · subst hc
        rw [tokensFrom_nil_delim hd] at ht
        obtain ⟨h1, h2⟩ := ih [] (by simp) t ht
        exact ⟨h1, fun b hb => ⟨(h2 b hb).1, by have := (h2 b hb).2; simp at this; simp [this]⟩⟩
      · rw [tokensFrom_delim hd hc] at ht
        rcases List.mem_cons.mp ht with rfl | ht
        · exact ⟨hc, fun b hb => ⟨hcur b hb, .inl hb⟩⟩
        · obtain ⟨h1, h2⟩ := ih [] (by simp) t ht
          exact ⟨h1, fun b hb => ⟨(h2 b hb).1, by have := (h2 b hb).2; simp at this; simp [this]⟩⟩
    · have hd' : isDelim c = false := by simpa using hd
      have hstep : tokensFrom cur (c :: line) = tokensFrom (cur ++ [c]) line := by simp [tokensFrom, hd']
      rw [hstep] at ht
      have hcc : ∀ b ∈ cur ++ [c], isDelim b = false := by
        intro b hb
        rcases List.mem_append.mp hb with h | h
        · exact hcur b h
        · simp at h; exact h ▸ hd'
      obtain ⟨h1, h2⟩ := ih (cur ++ [c]) hcc t ht
      refine ⟨h1, fun b hb => ⟨(h2 b hb).1, ?_⟩⟩
      rcases (h2 b hb).2 with h | h
      · rcases List.mem_append.mp h with h | h
        · exact .inl h
        · simp at h; exact .inr (by simp [h])
      · exact .inr (by simp [h])

/-- A digit's byte is 0x30 .. 0x39 (R92). -/
theorem digit_toNat (n : Nat) : (digit n).toNat = 0x30 + n % 10 := by
  simp only [digit, BitVec.toNat_ofNat]
  omega

/-- A digit's byte is a digit (R56). -/
theorem isDigit_digit (n : Nat) : isDigit (digit n) = true := by
  simp only [isDigit, digit_toNat, Bool.and_eq_true, decide_eq_true_eq]
  omega

/-- One more digit on the right (R57). -/
theorem digitsValue_append (ds : List Byte) (b : Byte) :
    digitsValue (ds ++ [b]) = 10 * digitsValue ds + (b.toNat - 0x30) := by
  simp [digitsValue]

/-- A numeral is made of digits (R92). -/
theorem decNat_digits (fuel n : Nat) : ∀ b ∈ decNat fuel n, isDigit b = true := by
  induction fuel generalizing n with
  | zero => simp [decNat, isDigit_digit]
  | succ fuel ih =>
    intro b hb
    by_cases hn : n < 10
    · simp [decNat, hn] at hb
      exact hb ▸ isDigit_digit n
    · simp [decNat, hn] at hb
      rcases hb with h | rfl
      · exact ih _ b h
      · exact isDigit_digit n

/-- A numeral has a digit (R92). -/
theorem decNat_ne_nil (fuel n : Nat) : decNat fuel n ≠ [] := by
  cases fuel with
  | zero => simp [decNat]
  | succ fuel => by_cases hn : n < 10 <;> simp [decNat, hn]

/-- A numeral denotes its number while the fuel suffices (R57, R92). -/
theorem digitsValue_decNat (fuel n : Nat) (h : n < 10 ^ (fuel + 1)) : digitsValue (decNat fuel n) = n := by
  induction fuel generalizing n with
  | zero =>
    have : n % 10 = n := Nat.mod_eq_of_lt (by simpa using h)
    simp [decNat, digitsValue, digit_toNat, this]
  | succ fuel ih =>
    by_cases hn : n < 10
    · have : n % 10 = n := Nat.mod_eq_of_lt hn
      simp [decNat, hn, digitsValue, digit_toNat, this]
    · have h' : n / 10 < 10 ^ (fuel + 1) := by
        rw [Nat.div_lt_iff_lt_mul (by decide)]
        rwa [pow_succ] at h
      simp only [decNat, hn, if_false, digitsValue_append, ih _ h', digit_toNat]
      omega

end Sys2Proof.Machine
end

