-- ==== Sys2Proof/Laws/Decode.lean ====
section
/-! SUPPORT. The small lemmas of the decoder and the encoder. -/

namespace Sys2Proof

open Sys2Proof.Machine

/-- No byte of a mnemonic is a delimiter (R50). -/
theorem Opcode.bytes_no_delim (o : Opcode) : ∀ b ∈ o.bytes, isDelim b = false := by
  cases o <;> decide

/-- No mnemonic is empty (R50). -/
theorem Opcode.bytes_ne_nil (o : Opcode) : o.bytes ≠ [] := by
  cases o <;> decide

/-- Each mnemonic is looked up as its own opcode (R51). -/
@[simp] theorem lookup_bytes (o : Opcode) : lookup o.bytes = some o := by
  cases o <;> decide

/-- Each canonical register name is matched as its own cell (R55). -/
@[simp] theorem regMatch_regName (i : Reg) : regMatch (regName i) = some i := by
  revert i
  decide

/-- Each canonical register name resolves to its own cell (R54). -/
@[simp] theorem resolve_regName (i : Reg) : resolve (regName i) = .reg i := by
  simp [resolve]

/-- Which of the three forms a token resolves to (R54). -/
theorem resolve_cases (tok : Token) :
    (∃ i, regMatch tok = some i ∧ resolve tok = .reg i) ∨
      (∃ v, regMatch tok = none ∧ litValue tok = some v ∧ resolve tok = .imm v) ∨
      (regMatch tok = none ∧ litValue tok = none ∧ resolve tok = .text tok) := by
  cases hr : regMatch tok with
  | some i => exact .inl ⟨i, rfl, by simp [resolve, hr]⟩
  | none =>
    cases hv : litValue tok with
    | some v => exact .inr (.inl ⟨v, rfl, rfl, by simp [resolve, hr, hv]⟩)
    | none => exact .inr (.inr ⟨rfl, rfl, by simp [resolve, hr, hv]⟩)

/-- The first token of a line that begins with a mnemonic and goes on with a space, or ends there (R47, R64). -/
theorem tokenize_joinTokens_t0 (o : Opcode) (ts : List Token) : (tokenize (joinTokens (o.bytes :: ts))).t0 = o.bytes := by
  cases ts with
  | nil => simp [tokenize, joinTokens, tokensOf_token o.bytes_ne_nil o.bytes_no_delim]
  | cons t ts =>
    have h : tokensOf (o.bytes ++ 0x20 :: joinTokens (t :: ts)) = o.bytes :: tokensOf (joinTokens (t :: ts)) :=
      tokensOf_token_delim o.bytes_ne_nil o.bytes_no_delim (by decide) _
    simp only [tokenize, joinTokens]
    rw [h]
    rfl

/-- The tokens of an instruction begin with its mnemonic. -/
theorem Instr.tokens_eq (i : Instr) : ∃ ts, i.tokens = i.opcode.bytes :: ts := by
  cases i <;> exact ⟨_, rfl⟩

end Sys2Proof
end

