-- ==== Sys2Proof/Laws/PerInstr.lean ====
section
/-! SUPPORT. Facts stated for every instruction, one lemma per constructor. -/

namespace Sys2Proof

open Sys2Proof.Machine

/-- The canonical line of an instruction selects that instruction's row of the Opcode Table (R51, R66). -/
def Laws.EncodeSelectsRow.Statement (i : Instr) : Prop := lookup (tokenize (encode i)).t0 = some i.opcode

/-- The shared proof: the first token of the canonical line is the mnemonic. -/
theorem Laws.encodeSelectsRow_of_tokens (i : Instr) : Laws.EncodeSelectsRow.Statement i := by
  obtain ⟨ts, h⟩ := i.tokens_eq
  have hne : (i.opcode.bytes).isEmpty = false := by simp [i.opcode.bytes_ne_nil]
  simp [Laws.EncodeSelectsRow.Statement, encode, h, hne, tokenize_joinTokens_t0]

theorem Laws.EncodeSelectsRow.add (dst src : Operand) : Statement (.add dst src) := encodeSelectsRow_of_tokens _
theorem Laws.EncodeSelectsRow.sub (dst src : Operand) : Statement (.sub dst src) := encodeSelectsRow_of_tokens _
theorem Laws.EncodeSelectsRow.shl (dst src : Operand) : Statement (.shl dst src) := encodeSelectsRow_of_tokens _
theorem Laws.EncodeSelectsRow.shr (dst src : Operand) : Statement (.shr dst src) := encodeSelectsRow_of_tokens _
theorem Laws.EncodeSelectsRow.set (dst src : Operand) : Statement (.set dst src) := encodeSelectsRow_of_tokens _
theorem Laws.EncodeSelectsRow.and (dst src : Operand) : Statement (.and dst src) := encodeSelectsRow_of_tokens _
theorem Laws.EncodeSelectsRow.or (dst src : Operand) : Statement (.or dst src) := encodeSelectsRow_of_tokens _
theorem Laws.EncodeSelectsRow.j (target : Operand) : Statement (.j target) := encodeSelectsRow_of_tokens _
theorem Laws.EncodeSelectsRow.prt (value : PrtValue) : Statement (.prt value) := encodeSelectsRow_of_tokens _

end Sys2Proof
end

