-- ==== Sys2Proof/Tests/Slice0.lean ====
section
/-! SUPPORT. The model's own tests. Lines are written out byte by byte from spec/30_encoding.md R50 and R67 and
spec/95_test_vectors.md, and expected results come from the vectors named. After them, the well-formedness smoke
test, and for every statement that has hypotheses a witness that meets them all together. -/

namespace Sys2Proof.Tests

open Sys2Proof Sys2Proof.Machine

/-- The reset state with a program loaded (R127). -/
def loaded (m : Memory) : State := (State.reset.hostLoad m true).hostReset

/-- The reset state with one register set. -/
def withReg (i : Reg) (v : Word) : State := State.reset.writeReg i v

/-- The next state of an outcome. -/
def nextOf : Result → Option State
  | .next s => some s
  | .fault _ => none
  | .refused _ => none

/-- A register of the next state of an outcome. -/
def regOf (i : Reg) (r : Result) : Option Word := (nextOf r).map fun s => s.readReg i

/-- `ip`, the error kind and the log of the next state of an outcome. -/
def statusOf (r : Result) : Option (LineIndex × ErrKind × List Event) :=
  (nextOf r).map fun s => (s.ip, s.errKind, s.out)

-- Lines of the spec's programs.

/-- `J 0` (S5). -/
def lineJ0 : Line := [0x4A, 0x20, 0x30]
/-- `J 1`. -/
def lineJ1 : Line := [0x4A, 0x20, 0x31]
/-- `J 2`. -/
def lineJ2 : Line := [0x4A, 0x20, 0x32]
/-- `J 3` (S6). -/
def lineJ3 : Line := [0x4A, 0x20, 0x33]
/-- `J REG1` (P7). -/
def lineJReg1 : Line := [0x4A, 0x20, 0x52, 0x45, 0x47, 0x31]
/-- `PRT` (P7). -/
def linePrt : Line := [0x50, 0x52, 0x54]
/-- `SET REG0 5` (S2). -/
def lineSet05 : Line := [0x53, 0x45, 0x54, 0x20, 0x52, 0x45, 0x47, 0x30, 0x20, 0x35]
/-- `ADD REG0 4` (P1). -/
def lineAdd04 : Line := [0x41, 0x44, 0x44, 0x20, 0x52, 0x45, 0x47, 0x30, 0x20, 0x34]
/-- `ADD REG0 x1` (P4). -/
def lineAddX1 : Line := [0x41, 0x44, 0x44, 0x20, 0x52, 0x45, 0x47, 0x30, 0x20, 0x78, 0x31]
/-- `ADD foo bar` (P7). -/
def lineAddFoo : Line := [0x41, 0x44, 0x44, 0x20, 0x66, 0x6F, 0x6F, 0x20, 0x62, 0x61, 0x72]
/-- `FOO REG0 REG1` (S8). -/
def lineFoo : Line := [0x46, 0x4F, 0x4F, 0x20, 0x52, 0x45, 0x47, 0x30, 0x20, 0x52, 0x45, 0x47, 0x31]

-- ==== Decoding, every constructor (R50, R67, 95_test_vectors.md 2.1 to 2.6) ====

theorem test_decode_add : decode lineAdd04 = .ok (.add (.reg 0) (.imm 4)) := by decide
/-- `SUB REG2 -17` (R67). -/
theorem test_decode_sub : decode [0x53, 0x55, 0x42, 0x20, 0x52, 0x45, 0x47, 0x32, 0x20, 0x2D, 0x31, 0x37] =
    .ok (.sub (.reg 2) (.imm (BitVec.ofInt 32 (-17)))) := by decide
/-- `SHL REG10 1` (R67): four bytes of the name count. -/
theorem test_decode_shl : decode [0x53, 0x48, 0x4C, 0x20, 0x52, 0x45, 0x47, 0x31, 0x30, 0x20, 0x31] =
    .ok (.shl (.reg 1) (.imm 1)) := by decide
/-- `SHR REG1 4` (P3). -/
theorem test_decode_shr : decode [0x53, 0x48, 0x52, 0x20, 0x52, 0x45, 0x47, 0x31, 0x20, 0x34] =
    .ok (.shr (.reg 1) (.imm 4)) := by decide
/-- `  SET<tab>REG3,  12<CR>` (P6). -/
theorem test_decode_set : decode [0x20, 0x20, 0x53, 0x45, 0x54, 0x09, 0x52, 0x45, 0x47, 0x33, 0x2C, 0x20, 0x20, 0x31,
    0x32, 0x0D] = .ok (.set (.reg 3) (.imm 12)) := by decide
/-- `AND REG8 1` (R67): `REG8` is no register. -/
theorem test_decode_and : decode [0x41, 0x4E, 0x44, 0x20, 0x52, 0x45, 0x47, 0x38, 0x20, 0x31] =
    .ok (.and (.text [0x52, 0x45, 0x47, 0x38]) (.imm 1)) := by decide
/-- `OR REG1 REG2` (P3). -/
theorem test_decode_or : decode [0x4F, 0x52, 0x20, 0x52, 0x45, 0x47, 0x31, 0x20, 0x52, 0x45, 0x47, 0x32] =
    .ok (.or (.reg 1) (.reg 2)) := by decide
/-- `J -1` (P6). -/
theorem test_decode_j : decode [0x4A, 0x20, 0x2D, 0x31] = .ok (.j (.imm 0xFFFFFFFF)) := by decide
/-- `PRT hello` (S7). -/
theorem test_decode_prt : decode [0x50, 0x52, 0x54, 0x20, 0x68, 0x65, 0x6C, 0x6C, 0x6F] =
    .ok (.prt (.text [0x68, 0x65, 0x6C, 0x6C, 0x6F])) := by decide
/-- `add REG0 1` (R67): the wrong case. -/
theorem test_decode_wrong_case : decode [0x61, 0x64, 0x64, 0x20, 0x52, 0x45, 0x47, 0x30, 0x20, 0x31] =
    .error .unknownOpcode := by decide
/-- A byte 0x00 is no byte of a line (R17). -/
theorem test_decode_pad_byte : decode [0x4A, 0x20, 0x00] = .error .padByte := by decide

/-- `2147483647`, `-2147483648`, `00000000002147483647` and `2147483648`, `+`, `0x10` (95_test_vectors.md 2.3). -/
theorem test_literals :
    litValue [0x32, 0x31, 0x34, 0x37, 0x34, 0x38, 0x33, 0x36, 0x34, 0x37] = some 0x7FFFFFFF ∧
    litValue [0x2D, 0x32, 0x31, 0x34, 0x37, 0x34, 0x38, 0x33, 0x36, 0x34, 0x38] = some 0x80000000 ∧
    litValue [0x30, 0x30, 0x30, 0x30, 0x30, 0x30, 0x30, 0x30, 0x30, 0x30, 0x32, 0x31, 0x34, 0x37, 0x34, 0x38, 0x33,
      0x36, 0x34, 0x37] = some 0x7FFFFFFF ∧
    litValue [0x32, 0x31, 0x34, 0x37, 0x34, 0x38, 0x33, 0x36, 0x34, 0x38] = none ∧
    litValue [0x2B] = none ∧ litValue [0x30, 0x78, 0x31, 0x30] = none := by decide

/-- `Dec` of 0, -4 and the two ends of the range (R92). -/
theorem test_dec :
    dec 0 = [0x30] ∧ dec (BitVec.ofInt 32 (-4)) = [0x2D, 0x34] ∧
    dec 0x7FFFFFFF = [0x32, 0x31, 0x34, 0x37, 0x34, 0x38, 0x33, 0x36, 0x34, 0x37] ∧
    dec 0x80000000 = [0x2D, 0x32, 0x31, 0x34, 0x37, 0x34, 0x38, 0x33, 0x36, 0x34, 0x38] := by decide

/-- The canonical line of `SET REG0 5` is its bytes (R64). -/
theorem test_encode_set : encode (.set (.reg 0) (.imm 5)) = lineSet05 := by decide

/-- Every row of opcode_table.json, its number read with the first byte most significant (R66), is its instruction
with absent operands. -/
theorem test_table_words :
    decodeTableWord 24 0x414444 = some (.add (.text []) (.text [])) ∧
    decodeTableWord 24 0x535542 = some (.sub (.text []) (.text [])) ∧
    decodeTableWord 24 0x53484C = some (.shl (.text []) (.text [])) ∧
    decodeTableWord 24 0x534852 = some (.shr (.text []) (.text [])) ∧
    decodeTableWord 24 0x534554 = some (.set (.text []) (.text [])) ∧
    decodeTableWord 24 0x414E44 = some (.and (.text []) (.text [])) ∧
    decodeTableWord 16 0x4F52 = some (.or (.text []) (.text [])) ∧
    decodeTableWord 8 0x4A = some (.j (.text [])) ∧
    decodeTableWord 24 0x505254 = some (.prt (.text [])) := by decide

/-- The first step after reset runs the word placed: `ADD` alone takes InvalidDestination, `J` alone InvalidOperand,
`PRT` alone prints the empty string (R53). -/
theorem test_first_step_of_table_words :
    statusOf (step (State.reset.withFetchWord 24 0x414444)) = some (0, .invalidDestination, []) ∧
    statusOf (step (State.reset.withFetchWord 8 0x4A)) = some (0, .invalidOperand, []) ∧
    statusOf (step (State.reset.withFetchWord 24 0x505254)) = some (1, .none, [.prt []]) := by decide

-- ==== One instruction each (95_test_vectors.md 2.4 to 2.6) ====

/-- 2147483647 + 1 wraps (R71). -/
theorem test_add_wraps : regOf 0 (exec (.add (.reg 0) (.imm 1)) (withReg 0 0x7FFFFFFF)) = some 0x80000000 := by decide
/-- `ADD REG0 REG0` doubles (R79). -/
theorem test_add_same : regOf 0 (exec (.add (.reg 0) (.reg 0)) (withReg 0 21)) = some 42 := by decide
/-- The destination is the minuend (R72). -/
theorem test_sub_order : regOf 1 (exec (.sub (.reg 1) (.imm 3)) (withReg 1 10)) = some 7 := by decide
/-- 0 - (-2147483648) is itself (R72). -/
theorem test_sub_smallest : regOf 1 (exec (.sub (.reg 1) (.imm 0x80000000)) (withReg 1 0)) = some 0x80000000 := by decide
/-- Amount 33 acts as 1 (R73). -/
theorem test_shl_amount : regOf 2 (exec (.shl (.reg 2) (.imm 33)) (withReg 2 1)) = some 2 := by decide
/-- Amount -1 acts as 31 (R73). -/
theorem test_shl_negative_amount :
    regOf 2 (exec (.shl (.reg 2) (.imm 0xFFFFFFFF)) (withReg 2 3)) = some 0x80000000 := by decide
/-- -7 by 1 is -4 (R74). -/
theorem test_shr_floor :
    regOf 3 (exec (.shr (.reg 3) (.imm 1)) (withReg 3 (BitVec.ofInt 32 (-7)))) = some (BitVec.ofInt 32 (-4)) := by decide
/-- Amount 36 acts as 4 (R74). -/
theorem test_shr_amount : regOf 3 (exec (.shr (.reg 3) (.imm 36)) (withReg 3 16)) = some 1 := by decide
/-- The source register keeps its value (S4). -/
theorem test_set_register : regOf 1 (exec (.set (.reg 1) (.reg 0)) (withReg 0 2)) = some 2 ∧
    regOf 0 (exec (.set (.reg 1) (.reg 0)) (withReg 0 2)) = some 2 := by decide
/-- -256 and 255 give 0 (R76). -/
theorem test_and : regOf 4 (exec (.and (.reg 4) (.imm 255)) (withReg 4 (BitVec.ofInt 32 (-256)))) = some 0 := by decide
/-- 12 or 10 is 14 (R77). -/
theorem test_or : regOf 5 (exec (.or (.reg 5) (.imm 10)) (withReg 5 12)) = some 14 := by decide
/-- `J -1` makes `ip` 4294967295 (R86). -/
theorem test_j_negative :
    statusOf (exec (.j (.imm 0xFFFFFFFF)) State.reset) = some (0xFFFFFFFF, .none, []) := by decide
/-- `J REG1` fails with InvalidJumpTarget and keeps `ip` (P7). -/
theorem test_j_register : statusOf (step (loaded [lineJReg1])) = some (0, .invalidJumpTarget, []) := by decide
/-- `PRT REG0` of -4 (2.6). -/
theorem test_prt_register : statusOf (exec (.prt (.reg 0)) (withReg 0 (BitVec.ofInt 32 (-4)))) =
    some (1, .none, [.prt [0x2D, 0x34]]) := by decide

-- ==== Errors, the halting transition, whole runs (P4, P7, S2, S5, S8) ====

theorem test_invalid_operand : statusOf (step (loaded [lineAddX1])) = some (0, .invalidOperand, []) := by decide
theorem test_destination_first : statusOf (step (loaded [lineAddFoo])) = some (0, .invalidDestination, []) := by decide
theorem test_unknown_reports_line : (nextOf (step (loaded [lineFoo]))).map (fun s => (s.errKind, s.errText)) =
    some (.unknownOpcode, lineFoo) := by decide
theorem test_empty_program_halts : statusOf (step (loaded [])) = some (0, .none, [.done]) := by decide
theorem test_out_of_fuel : State.run 1 (loaded [lineJ0]) = .outOfFuel (loaded [lineJ0]) := by decide
theorem test_failed_load : State.run 1 (State.reset.hostLoad [lineFoo] false) =
    .loadFailure (State.reset.hostLoad [lineFoo] false).hostReset := by decide

-- ==== The smoke test of WellFormed: one ill-formed term for each check ====

/-- Text with a space in it is no token (R47). -/
theorem test_wf_refuses_delimiter : (Instr.j (.text [0x41, 0x20])).wf = false := by decide
/-- Text with a pad byte in it is no token (R46). -/
theorem test_wf_refuses_pad : (Instr.prt (.text [0x41, 0x00])).wf = false := by decide
/-- A literal is not text (R58). -/
theorem test_wf_refuses_literal_text : (Instr.add (.reg 0) (.text [0x35])).wf = false := by decide
/-- A register name is not text (R55). -/
theorem test_wf_refuses_register_text : (Instr.or (.text [0x52, 0x45, 0x47, 0x30]) (.imm 1)).wf = false := by decide
/-- A register name is not text to PRT either (R91 c). -/
theorem test_wf_refuses_register_print : (Instr.prt (.text [0x52, 0x45, 0x47, 0x30, 0x78])).wf = false := by decide
/-- Operand 2 cannot be there where operand 1 is absent (R48). -/
theorem test_wf_refuses_gap : (Instr.sub (.text []) (.imm 1)).wf = false := by decide
/-- A line too long for the store: the bound is OPEN, so only what lies under every bound can be decided (log 8). -/
theorem test_fits_shortest : (Instr.j (.text [])).fits := Nat.succ_le_succ (Nat.zero_le _)

-- ==== Witnesses: for each statement with hypotheses, values that meet them all together ====

theorem witness_TokenizeTakesFirstThreeTokens :
    IsDelims [0x20] ∧ IsDelims [0x09] ∧ IsToken [0x4A] ∧ ([0x20] : List Byte) ≠ [] ∧
    (([0x09] : List Byte) ≠ [] ∨ ([0x39] : List Byte) = []) := by
  simp [IsDelims, IsToken, delimBytes]

theorem witness_LookupMatchesWholeMnemonic :
    (0x00 : Byte) ∉ ([0x4A, 0x4A] : Line) ∧ lookup (tokenize [0x4A, 0x4A]).t0 = none := by decide

theorem witness_ResolveLooksUpRegistersFirst :
    regMatch [0x52, 0x45, 0x47, 0x37] = some 7 ∧ litValue [0x2D, 0x30] = some 0 ∧
    regMatch [0x52, 0x45, 0x47, 0x38] = none ∧ litValue [0x52, 0x45, 0x47, 0x38] = none := by decide

theorem witness_DecimalTextIsShortestNumeral : 0 ≤ (0 : Word).toInt ∧ (0xFFFFFFFF : Word).toInt < 0 := by decide

theorem witness_DecodeEncodeRoundTrip :
    (Instr.shr (.reg 7) (.imm 0x80000000)).wf = true ∧ (Instr.prt (.text [0x30])).wf = true ∧
    (Instr.and (.text []) (.text [])).wf = true ∧ (Instr.j (.text [0x2B])).wf = true := by decide

theorem witness_EncodedLineIsClean : (Instr.sub (.reg 2) (.imm 0xFFFFFFEF)).wf = true := by decide

theorem witness_DecodedInstructionIsWellFormed : decode lineAddFoo =
    .ok (.add (.text [0x66, 0x6F, 0x6F]) (.text [0x62, 0x61, 0x72])) := by decide

theorem witness_SlotHoldsItsLine : lineOk [0x4A] = true ∧ ([0x4A] : Line).length ≤ Config.lineMax :=
  ⟨by decide, Nat.succ_le_succ (Nat.zero_le _)⟩

/-- A line for each of the nine rules, and a state whose `ip` names a line, for the clauses on errors. -/
theorem witness_instruction_rules :
    tokenize lineAdd04 = ⟨[0x41, 0x44, 0x44], [0x52, 0x45, 0x47, 0x30], [0x34]⟩ ∧ (0x00 : Byte) ∉ lineAdd04 ∧
    tokenize [0x53, 0x55, 0x42] = ⟨[0x53, 0x55, 0x42], [], []⟩ ∧
    tokenize [0x53, 0x48, 0x4C] = ⟨[0x53, 0x48, 0x4C], [], []⟩ ∧
    tokenize [0x53, 0x48, 0x52] = ⟨[0x53, 0x48, 0x52], [], []⟩ ∧
    tokenize lineSet05 = ⟨[0x53, 0x45, 0x54], [0x52, 0x45, 0x47, 0x30], [0x35]⟩ ∧
    tokenize [0x41, 0x4E, 0x44] = ⟨[0x41, 0x4E, 0x44], [], []⟩ ∧
    tokenize [0x4F, 0x52] = ⟨[0x4F, 0x52], [], []⟩ ∧
    tokenize lineJReg1 = ⟨[0x4A], [0x52, 0x45, 0x47, 0x31], []⟩ ∧ regMatch [0x52, 0x45, 0x47, 0x31] = some 1 ∧
    tokenize linePrt = ⟨[0x50, 0x52, 0x54], [], []⟩ ∧ regMatch [] = none ∧
    (∀ rd, Operand.imm 5 ≠ .reg rd) ∧ (loaded [lineAddX1]).fetch = some lineAddX1 := by decide

theorem witness_TwoOperandFrame :
    (Instr.add (.reg 0) (.imm 1)).rsOperands = some (.reg 0, .imm 1) ∧
    exec (.add (.reg 0) (.imm 1)) State.reset = .next (State.reset.writeReg 0 1).advanceIp := ⟨rfl, rfl⟩

theorem witness_TwoOperandFrame_error :
    exec (.add (.imm 1) (.imm 1)) (loaded [lineAddFoo]) =
      .next ((loaded [lineAddFoo]).withError .invalidDestination lineAddFoo) := rfl

theorem witness_JumpAndPrintFrame :
    exec (.j (.imm 7)) State.reset = .next (State.reset.setIp 7) ∧
    exec (.j (.reg 1)) (loaded [lineJReg1]) = .next ((loaded [lineJReg1]).withError .invalidJumpTarget lineJReg1) ∧
    exec (.prt (.text [0x41])) State.reset = .next (State.reset.emit (.prt [0x41])).advanceIp := ⟨rfl, rfl, rfl⟩

/-- Each kind of target at its edge: 0, the last line, just past the end, the largest, -1 and the smallest; and a jump
to itself. -/
theorem witness_JumpTargetsInsideAndOutside :
    (loaded [lineJ1, linePrt]).runState = .running ∧ (loaded [lineJ1, linePrt]).prog.wf = true ∧
    (0 ≤ (0 : Word).toInt ∧ (0 : Word).toInt < (loaded [lineJ1, linePrt]).progLen) ∧
    (0 ≤ (1 : Word).toInt ∧ (1 : Word).toInt < (loaded [lineJ1, linePrt]).progLen) ∧
    ((loaded [lineJ1, linePrt]).progLen : Int) ≤ (2 : Word).toInt ∧
    ((loaded [lineJ1, linePrt]).progLen : Int) ≤ (0x7FFFFFFF : Word).toInt ∧
    (0xFFFFFFFF : Word).toInt < 0 ∧ (0x80000000 : Word).toInt < 0 ∧
    (loaded [lineJ0]).fetch = some lineJ0 ∧ decode lineJ0 = .ok (.j (.imm 0)) ∧ (0 : Word) = (loaded [lineJ0]).ip := by
  decide

theorem witness_ErrorWithoutLineFaults :
    State.reset.fetch = none ∧ instrError (.j (.reg 0)) = some .invalidJumpTarget ∧
    instrError (.j (.imm 0)) = none := by decide

theorem witness_UnknownMnemonicHalts :
    (loaded [lineFoo]).runState = .running ∧ (loaded [lineFoo]).fetch = some lineFoo ∧ (0x00 : Byte) ∉ lineFoo ∧
    lookup (tokenize lineFoo).t0 = none := by decide

/-- A line for each clause of the error order: bad destination, bad source, good operands, J with a register, with
text, with a literal, and PRT. -/
theorem witness_ErrorPriority :
    (loaded [lineAddFoo]).fetch = some lineAddFoo ∧ (0x00 : Byte) ∉ lineAddFoo ∧
    (∀ rd, resolve (tokenize lineAddFoo).t1 ≠ .reg rd) ∧ lookup (tokenize lineAddFoo).t0 = some .add ∧
    (loaded [lineAddX1]).fetch = some lineAddX1 ∧ resolve (tokenize lineAddX1).t1 = .reg 0 ∧
    resolve (tokenize lineAddX1).t2 = .text (tokenize lineAddX1).t2 ∧
    (loaded [lineAdd04]).fetch = some lineAdd04 ∧ resolve (tokenize lineAdd04).t2 = .imm 4 ∧
    (loaded [lineJReg1]).fetch = some lineJReg1 ∧ lookup (tokenize lineJReg1).t0 = some .j ∧
    resolve (tokenize lineJReg1).t1 = .reg 1 ∧ resolve (tokenize [0x4A]).t1 = .text (tokenize [0x4A]).t1 ∧
    resolve (tokenize lineJ1).t1 = .imm 1 ∧ lookup (tokenize linePrt).t0 = some .prt ∧
    lineError lineAddX1 = some .invalidOperand ∧ lineError lineAdd04 = none := by decide

theorem witness_ErrorDependsOnTextAlone :
    (loaded [lineAddX1]).runState = .running ∧ (loaded [lineAddX1]).fetch = some lineAddX1 ∧
    (0x00 : Byte) ∉ lineAddX1 ∧ lineError lineAddX1 = some .invalidOperand ∧
    (loaded [linePrt]).fetch = some linePrt ∧ (0x00 : Byte) ∉ linePrt ∧ lineError linePrt = none := by decide

theorem witness_PadByteInLineFaults :
    (loaded [[0x4A, 0x00]]).runState = .running ∧ (loaded [[0x4A, 0x00]]).fetch = some [0x4A, 0x00] ∧
    (0x00 : Byte) ∈ ([0x4A, 0x00] : Line) := by decide

theorem witness_ExitStatusByErrorKind :
    (loaded [lineFoo]).runState = .running ∧ (loaded []).halt.runState = .halted ∧ (loaded []).halt.errKind = .none ∧
    ((loaded [lineFoo]).withError .unknownOpcode lineFoo).errKind ≠ .none := by decide

theorem witness_StepRunsDecodedInstruction :
    (loaded [lineSet05]).runState = .running ∧ (loaded [lineSet05]).fetch = some lineSet05 ∧
    decode lineSet05 = .ok (.set (.reg 0) (.imm 5)) := by decide

theorem witness_HaltingTransitionPastTheEnd :
    (loaded [lineJ1]).advanceIp.runState = .running ∧
    (loaded [lineJ1]).advanceIp.progLen ≤ (loaded [lineJ1]).advanceIp.ip.toNat := by decide

theorem witness_HaltedBlockHasNoStep : (loaded []).halt.runState = .halted := rfl

theorem witness_RunningBlockAlwaysSteps :
    (loaded [lineFoo, linePrt]).runState = .running ∧ (loaded [lineFoo, linePrt]).prog.wf = true := by decide

/-- One step of a program that writes a register, and one that halts with an error: both clauses of the statements on
a step. -/
theorem witness_step_statements :
    (loaded [lineSet05]).prog.wf = true ∧
    step (loaded [lineSet05]) = .next ((loaded [lineSet05]).writeReg 0 5).advanceIp ∧
    ((loaded [lineSet05]).writeReg 0 5).advanceIp.readReg 0 ≠ (loaded [lineSet05]).readReg 0 ∧
    ((loaded [lineSet05]).writeReg 0 5).advanceIp.runState = .running ∧
    step (loaded [lineFoo]) = .next ((loaded [lineFoo]).withError .unknownOpcode lineFoo) ∧
    ((loaded [lineFoo]).withError .unknownOpcode lineFoo).runState = .halted :=
  ⟨by decide, rfl, by decide, rfl, rfl, rfl⟩

/-- A step of each of the three kinds: one without an event, the halting transition, a PRT. -/
theorem witness_OutputLogGrowsByPrtAndDone :
    step (loaded [lineSet05]) = .next ((loaded [lineSet05]).writeReg 0 5).advanceIp ∧
    step (loaded []) = .next (loaded []).halt ∧
    step (loaded [linePrt]) = .next ((loaded [linePrt]).emit (.prt [])).advanceIp := ⟨rfl, rfl, rfl⟩

theorem witness_ProgramStoreIsImmutable :
    stepN 1 (loaded [lineSet05]) = .next ((loaded [lineSet05]).writeReg 0 5).advanceIp := rfl

theorem witness_StatusGroupInvariantKept :
    StatusInv (loaded [lineFoo]) ∧
    step (loaded [lineFoo]) = .next ((loaded [lineFoo]).withError .unknownOpcode lineFoo) :=
  ⟨⟨rfl, rfl, by decide⟩, rfl⟩

/-- Two states that differ in a register and in printed text. -/
theorem witness_ControlFlowIgnoresRegisters :
    SameControl ((loaded [linePrt]).emit (.prt [0x41])) (((loaded [linePrt]).writeReg 3 9).emit (.prt [0x42])) :=
  ⟨rfl, rfl, rfl, rfl, rfl, rfl, rfl, rfl⟩

theorem witness_CompletedCycleNeverHalts :
    0 < 1 ∧ (loaded [lineJ0]).runState = .running ∧ stepN 1 (loaded [lineJ0]) = .next (loaded [lineJ0]) :=
  ⟨by decide, rfl, rfl⟩

/-- A `J 0` at index 1 after a line that is no jump: the only jump from line 0 to line 1 goes to line 0. -/
theorem jumps_stay_of_no_jump {l0 : Line} (h : ∀ w, decode l0 ≠ .ok (.j (.imm w))) :
    ∀ n l w, (loaded [l0, lineJ0]).advanceIp.progRead n = some l → decode l = .ok (.j (.imm w)) → w = 0 := by
  intro n l w hl hd
  match n with
  | 0 =>
    obtain rfl : l0 = l := by simpa [State.progRead, loaded, State.hostLoad, State.hostReset] using hl
    exact absurd hd (h w)
  | 1 =>
    obtain rfl : lineJ0 = l := by simpa [State.progRead, loaded, State.hostLoad, State.hostReset] using hl
    have h0 : decode lineJ0 = .ok (.j (.imm 0)) := by decide
    rw [h0] at hd
    cases hd
    rfl
  | n + 2 => simp [State.progRead, loaded, State.hostLoad, State.hostReset] at hl

/-- Both clauses: `J 0` after `PRT` goes round for ever; after a line that fails, the line's error comes first. -/
theorem witness_BackwardJumpWithNoWayOutNeverHalts :
    (∀ l0 ∈ [linePrt, lineFoo],
      (loaded [l0, lineJ0]).advanceIp.runState = .running ∧ (loaded [l0, lineJ0]).advanceIp.prog.wf = true ∧
      (loaded [l0, lineJ0]).advanceIp.fetch = some lineJ0 ∧
      (∀ n l w, (0 : Word).toNat ≤ n → n ≤ (loaded [l0, lineJ0]).advanceIp.ip.toNat →
        (loaded [l0, lineJ0]).advanceIp.progRead n = some l → decode l = .ok (.j (.imm w)) →
        (0 : Word).toNat ≤ w.toNat ∧ w.toNat ≤ (loaded [l0, lineJ0]).advanceIp.ip.toNat)) ∧
    decode lineJ0 = .ok (.j (.imm 0)) ∧ lineError linePrt = none ∧ lineError lineFoo = some .unknownOpcode := by
  have e : decode linePrt = .ok (.prt (.text [])) := by decide
  have f : decode lineFoo = .error .unknownOpcode := by decide
  refine ⟨?_, by decide, by decide, by decide⟩
  intro l0 h0
  have hw : (loaded [l0, lineJ0]).advanceIp.prog.wf = true := by
    rcases List.mem_pair.mp h0 with rfl | rfl <;> decide
  refine ⟨rfl, hw, rfl, fun n l w _ _ hl hd => ?_⟩
  have hj : ∀ w, decode l0 ≠ .ok (.j (.imm w)) := by
    rcases List.mem_pair.mp h0 with rfl | rfl
    · simp [e]
    · simp [f]
  rw [jumps_stay_of_no_jump hj n l w hl hd]
  exact ⟨Nat.zero_le _, Nat.zero_le _⟩

/-- Both clauses: `J 2`, `J 3`, `J 1`, `PRT` reaches a backward jump and halts at the last step the bound allows
(log 15); `J 0` comes back after its first step. -/
theorem witness_RunHaltsOrRepeatsABackwardJump :
    (loaded [lineJ2, lineJ3, lineJ1, linePrt]).runState = .running ∧
    (loaded [lineJ2, lineJ3, lineJ1, linePrt]).prog.wf = true ∧
    (nextOf (stepN 5 (loaded [lineJ2, lineJ3, lineJ1, linePrt]))).map (fun t => (t.runState, t.errKind)) =
      some (.halted, .none) ∧
    (loaded [lineJ2, lineJ3, lineJ1, linePrt]).progLen + 1 = 5 ∧
    (loaded [lineJ0]).runState = .running ∧ (loaded [lineJ0]).prog.wf = true ∧
    nextOf (stepN 1 (loaded [lineJ0])) = some (loaded [lineJ0]) := by decide

/-- `J 1` jumps forward to `PRT`, which is no jump. -/
theorem witness_ForwardJumpsHaltWithinProgLen :
    (loaded [lineJ1, linePrt]).runState = .running ∧ (loaded [lineJ1, linePrt]).prog.wf = true ∧
    ∀ n line v, (loaded [lineJ1, linePrt]).progRead n = some line → decode line = .ok (.j (.imm v)) → n < v.toNat := by
  refine ⟨rfl, by decide, ?_⟩
  intro n line v hl hd
  match n with
  | 0 =>
    obtain rfl : lineJ1 = line := by simpa [State.progRead, loaded, State.hostLoad, State.hostReset] using hl
    have h : decode lineJ1 = .ok (.j (.imm 1)) := by decide
    rw [h] at hd
    cases hd
    decide
  | 1 =>
    obtain rfl : linePrt = line := by simpa [State.progRead, loaded, State.hostLoad, State.hostReset] using hl
    have h : decode linePrt = .ok (.prt (.text [])) := by decide
    rw [h] at hd
    cases hd
  | n + 2 => simp [State.progRead, loaded, State.hostLoad, State.hostReset] at hl

theorem witness_StraightLineRunsEveryLine :
    (loaded [lineSet05, linePrt]).runState = .running ∧ (loaded [lineSet05, linePrt]).prog.wf = true ∧
    (loaded [lineSet05, linePrt]).ip.toNat ≤ (loaded [lineSet05, linePrt]).progLen ∧
    ∀ line ∈ (loaded [lineSet05, linePrt]).prog, lookup (tokenize line).t0 ≠ some .j ∧ lineError line = none := by
  decide

theorem witness_ResetSetsEveryField :
    (loaded [linePrt]).loadOk = true ∧ (State.reset.hostLoad [] false).loadOk = false ∧
    (loaded [linePrt]).prog = ((loaded [linePrt]).writeReg 0 5).prog := by decide

theorem witness_FirstStepIsLineZero :
    ([lineSet05, linePrt] : Memory)[0]? = some lineSet05 ∧ decode lineSet05 = .ok (.set (.reg 0) (.imm 5)) := by decide

theorem witness_ErrorEntryWritesStatusOnly : (loaded [lineFoo]).fetch = some lineFoo := by decide

theorem witness_TableWordRunsNext : decodeTableWord 24 0x505254 = some (.prt (.text [])) := by decide

end Sys2Proof.Tests
end

section
/-! What one step can do, as cases with names, and the frame of every meaning and of the step (spec/10_state.md). -/

namespace Sys2Proof.Machine

/-- Reads of the program store depend on the store alone (R21). -/
theorem State.progRead_congr {s t : State} (h : t.prog = s.prog) (n : Nat) : t.progRead n = s.progRead n := by
  simp [State.progRead, h]

theorem State.progLen_congr {s t : State} (h : t.prog = s.prog) : t.progLen = s.progLen := by
  simp [State.progLen, h]

/-- `to_u32` of a literal's signed value is the literal's own 32 bits (R6, R85). -/
@[simp] theorem toU32_toInt (v : Word) : toU32 v.toInt = v := BitVec.ofInt_toInt

/-- The effects a step can have (R96, R112, R70, R85, R90), each with what the store says of the line at `ip`. -/
inductive StepEffect (s : State) : State → Prop
  | halt (hfetch : s.fetch = none) : StepEffect s s.halt
  | error {line : Line} {k : ErrKind} (hfetch : s.fetch = some line) (herr : lineError line = some k) :
      StepEffect s (s.withError k line)
  | write {line : Line} {i : Instr} {rd : Reg} {src : Operand} (v : Word) (hfetch : s.fetch = some line)
      (hdec : decode line = .ok i) (hrs : i.rsOperands = some (.reg rd, src)) :
      StepEffect s (s.writeReg rd v).advanceIp
  | jump {line : Line} {v : Word} (hfetch : s.fetch = some line) (hdec : decode line = .ok (.j (.imm v))) :
      StepEffect s (s.setIp v)
  | print {line : Line} {v : PrtValue} (hfetch : s.fetch = some line) (hdec : decode line = .ok (.prt v)) :
      StepEffect s (s.emit (.prt (s.prtText v))).advanceIp

/-- Every step starts RUNNING and has one of the effects (R98). -/
theorem step_effect {s t : State} (h : step s = .next t) : s.runState = .running ∧ StepEffect s t := by
  obtain ⟨hrun, hcase⟩ := step_next h
  refine ⟨hrun, ?_⟩
  rcases hcase with ⟨hf, rfl⟩ | ⟨line, k, hf, he, rfl⟩ | ⟨line, i, hf, hd, he, hx, htrun⟩
  · exact .halt hf
  · exact .error hf he
  · rcases exec_next hx with ⟨rd, src, b, hrs, -, rfl, -⟩ | ⟨v, rfl, rfl⟩ | ⟨v, rfl, rfl⟩ | ⟨k, line', -, -, rfl⟩
    · exact .write _ hf hd hrs
    · rw [toU32_toInt]
      exact .jump hf hd
    · exact .print hf hd
    · cases htrun

/-- No effect writes the program store or `load_ok` (R42). -/
theorem StepEffect.prog_loadOk {s t : State} (h : StepEffect s t) : t.prog = s.prog ∧ t.loadOk = s.loadOk := by
  cases h <;> exact ⟨rfl, rfl⟩

/-- All that J can answer as a next state (R85). -/
theorem exec_j_next {target : Operand} {s t : State} (h : exec (.j target) s = .next t) :
    (∃ v, target = .imm v ∧ t = s.setIp v) ∨
      ∃ k line, s.fetch = some line ∧ t = s.withError k line ∧ (k = .invalidJumpTarget ∨ k = .invalidOperand) := by
  cases target with
  | imm v =>
    have ht : s.setIp (toU32 v.toInt) = t := by simpa only [exec, execJ, Host.Outcome.next.injEq] using h
    exact .inl ⟨v, rfl, by rw [← ht, toU32_toInt]⟩
  | reg r =>
    obtain ⟨line, hf, rfl⟩ := raise_next (k := .invalidJumpTarget) h
    exact .inr ⟨_, line, hf, rfl, .inl rfl⟩
  | text x =>
    obtain ⟨line, hf, rfl⟩ := raise_next (k := .invalidOperand) h
    exact .inr ⟨_, line, hf, rfl, .inr rfl⟩

/-- The one answer of PRT (R90). -/
theorem exec_prt (v : PrtValue) (s : State) :
    exec (.prt v) s = .next (s.emit (.prt (s.prtText v))).advanceIp := rfl

/-- Settles O22: the two outcomes of `ExecRS`, each field by the lemma of its update. -/
theorem twoOperandFrame : Obligations.TwoOperandFrame := by
  intro i dst src s t hrs h
  rw [exec_eq_execRS hrs] at h
  rcases execRS_next h with ⟨rd, b, rfl, -, rfl⟩ | ⟨k, line, hf, rfl, hk⟩
  · refine ⟨fun r hr => ?_, rfl, State.progRead_congr rfl, State.progLen_congr rfl, rfl,
      .inl ⟨rfl, rfl, rfl, rfl, rfl⟩⟩
    have hne : rd ≠ r := fun e => hr (congrArg Operand.reg e)
    simp [hne]
  · exact ⟨fun _ _ => rfl, rfl, State.progRead_congr rfl, State.progLen_congr rfl, rfl,
      .inr ⟨rfl, fun _ => rfl, rfl, rfl, hf, hk⟩⟩

/-- Settles O23: J sets `ip` or raises, PRT emits one event and advances. -/
theorem jumpAndPrintFrame : Obligations.JumpAndPrintFrame := by
  refine ⟨fun target s t h => ?_, fun value s t h => ?_⟩
  · rcases exec_j_next h with ⟨v, -, rfl⟩ | ⟨k, line, hf, rfl, hk⟩
    · exact ⟨fun _ => rfl, rfl, State.progRead_congr rfl, State.progLen_congr rfl, rfl, .inl ⟨rfl, rfl, rfl, rfl⟩⟩
    · exact ⟨fun _ => rfl, rfl, State.progRead_congr rfl, State.progLen_congr rfl, rfl,
        .inr ⟨rfl, rfl, rfl, hf, hk⟩⟩
  · rw [exec_prt] at h
    obtain rfl := Host.Outcome.next.inj h
    exact ⟨fun _ => rfl, ⟨_, rfl⟩, State.progRead_congr rfl, State.progLen_congr rfl, rfl, rfl, rfl, rfl, rfl, rfl⟩

/-- Settles O40: the only effect that changes a register is `write`, and it changes its destination alone. -/
theorem stepWritesOnlyTheDestination : Obligations.StepWritesOnlyTheDestination := by
  intro s t h r hr
  obtain ⟨hrun, heff⟩ := step_effect h
  cases heff with
  | @write _ _ rd src v hf hd hrs =>
    obtain rfl : rd = r := by
      by_contra hne
      exact hr (by simp [hne])
    exact ⟨⟨_, _, src, hf, hd, hrs⟩, hrun, fun q hq => by simp [Ne.symm hq]⟩
  | halt => exact absurd rfl hr
  | error => exact absurd rfl hr
  | jump => exact absurd rfl hr
  | print => exact absurd rfl hr

/-- An instruction with two operands is no PRT (R49). -/
theorem ne_prt_of_rsOperands {i : Instr} {p : Operand × Operand} (h : i.rsOperands = some p) (v : PrtValue) :
    i ≠ .prt v := by
  rintro rfl
  cases h

/-- PRT never fails (R90). -/
theorem decode_ne_prt_of_lineError {line : Line} {k : ErrKind} (h : lineError line = some k) (v : PrtValue) :
    decode line ≠ .ok (.prt v) := by
  intro hd
  simp [lineError, hd, instrError, Instr.rsOperands] at h

/-- Settles O41: `halt` appends `Done`, `print` one `Prt`, and no other effect touches the log. -/
theorem outputLogGrowsByPrtAndDone : Obligations.OutputLogGrowsByPrtAndDone := by
  intro s t h
  obtain ⟨-, heff⟩ := step_effect h
  cases heff with
  | halt hf => exact .inr (.inl ⟨rfl, s.fetch_eq_none_iff.mp hf, rfl, rfl⟩)
  | error hf he => exact .inl ⟨rfl, _, hf, decode_ne_prt_of_lineError he⟩
  | write v hf hd hrs =>
    refine .inl ⟨rfl, _, hf, fun p hp => ne_prt_of_rsOperands hrs p ?_⟩
    rw [hd] at hp
    exact Decoded.ok.inj hp
  | jump hf hd => exact .inl ⟨rfl, _, hf, fun p hp => by simp [hd] at hp⟩
  | print hf hd => exact .inr (.inr ⟨_, _, hf, hd, rfl⟩)

/-- Settles O42, by induction on the number of steps. -/
theorem programStoreIsImmutable : Obligations.ProgramStoreIsImmutable := by
  intro n
  induction n with
  | zero =>
    intro s t h
    obtain rfl := Host.Outcome.next.inj h
    exact ⟨rfl, rfl⟩
  | succ n ih =>
    intro s t h
    cases hs : step s with
    | next u =>
      have hu : stepN n u = .next t := by simpa [stepN, hs] using h
      obtain ⟨hprog, hload⟩ := (step_effect hs).2.prog_loadOk
      obtain ⟨hprog', hload'⟩ := ih u t hu
      exact ⟨hprog'.trans hprog, hload'.trans hload⟩
    | fault f => simp [stepN, hs] at h
    | refused r => simp [stepN, hs] at h

end Sys2Proof.Machine
end

section
/-! The invariant of the status group, `ip` and the log (spec/10_state.md R18, R99, R106, R112). -/

namespace Sys2Proof.Machine

/-- The error kinds an instruction raises: 2 to 5 of R105, neither None nor SourceUnavailable. -/
def ErrKind.ofLine : ErrKind → Bool
  | .none => false
  | .sourceUnavailable => false
  | .unknownOpcode => true
  | .invalidDestination => true
  | .invalidJumpTarget => true
  | .invalidOperand => true

/-- The error an instruction's operands give is one of kinds 3 to 5 (R59, R105). -/
theorem instrError_ofLine {i : Instr} {k : ErrKind} (h : instrError i = some k) : k.ofLine = true := by
  unfold instrError at h
  split at h <;> cases h <;> rfl

/-- The error a line's text gives is one of kinds 2 to 5 (R60, R105). -/
theorem lineError_ofLine {line : Line} {k : ErrKind} (h : lineError line = some k) : k.ofLine = true := by
  unfold lineError at h
  split at h
  · exact instrError_ofLine h
  · cases h; rfl
  · cases h

/-- The invariant of a RUNNING state (R18, R99). -/
theorem statusInv_of_running {s : State} (h : s.runState = .running) :
    StatusInv s ↔ s.errKind = .none ∧ s.errIndex = 0 ∧ s.errText = [] ∧ Event.done ∉ s.out := by
  cases hk : s.errKind <;> simp [StatusInv, h, hk]

/-- The halting transition past the end keeps the invariant (R96). -/
theorem statusInv_halt {s : State} (hrun : s.runState = .running) (hinv : StatusInv s) (hfetch : s.fetch = none) :
    StatusInv s.halt := by
  obtain ⟨hk, hx, ht, ho⟩ := (statusInv_of_running hrun).mp hinv
  simp only [StatusInv, State.halt_runState, State.halt_errKind, hk]
  exact ⟨s.fetch_eq_none_iff.mp hfetch, hx, ht, s.out, rfl, ho⟩

/-- Error entry with the error of the line at `ip`, before any `Done`, gives the invariant (R112). -/
theorem statusInv_withError {s : State} {line : Line} {k : ErrKind} (hfetch : s.fetch = some line)
    (herr : lineError line = some k) (hout : Event.done ∉ s.out) : StatusInv (s.withError k line) := by
  have hk := lineError_ofLine herr
  cases k with
  | none => cases hk
  | sourceUnavailable => cases hk
  | _ => exact ⟨rfl, hfetch, herr, hout⟩

/-- Settles O43: `halt` and `error` lead to the two ends a step can reach, the other effects keep the clause of
RUNNING. -/
theorem statusGroupInvariantKept : Obligations.StatusGroupInvariantKept := by
  intro s t hinv h
  obtain ⟨hrun, heff⟩ := step_effect h
  obtain ⟨hk, hx, ht, ho⟩ := (statusInv_of_running hrun).mp hinv
  cases heff with
  | halt hf => exact statusInv_halt hrun hinv hf
  | error hf he => exact statusInv_withError hf he ho
  | write => exact Iff.mpr (statusInv_of_running hrun) ⟨hk, hx, ht, ho⟩
  | jump => exact Iff.mpr (statusInv_of_running hrun) ⟨hk, hx, ht, ho⟩
  | print => exact Iff.mpr (statusInv_of_running hrun) ⟨hk, hx, ht, by simpa using ho⟩

/-- Every register reads 0 after the host's reset (R12, R125). -/
@[simp] theorem State.readReg_hostReset (s : State) (i : Reg) : s.hostReset.readReg i = 0 := by
  simp [State.readReg_eq, State.hostReset]

/-- The host's reset gives the invariant, RUNNING or with the load's failure (R28, R106). -/
theorem statusInv_hostReset (s : State) : StatusInv s.hostReset := by
  cases hl : s.loadOk with
  | true =>
    have hrun : s.hostReset.runState = .running := by simp [State.hostReset, hl]
    have hk : s.hostReset.errKind = .none := by simp [State.hostReset, hl]
    exact (statusInv_of_running hrun).mpr ⟨hk, rfl, rfl, List.not_mem_nil⟩
  | false =>
    have hrun : s.hostReset.runState = .halted := by simp [State.hostReset, hl]
    have hk : s.hostReset.errKind = .sourceUnavailable := by simp [State.hostReset, hl]
    simp only [StatusInv, hrun, hk]
    exact ⟨rfl, rfl, rfl, rfl, s.readReg_hostReset⟩

/-- Settles O44: the model's reset state is a host reset too. -/
theorem statusGroupInvariantAtReset : Obligations.StatusGroupInvariantAtReset := by
  refine ⟨statusInv_hostReset, ?_⟩
  rw [State.reset_eq_hostReset]
  exact statusInv_hostReset _

/-- Settles O50. -/
theorem resetStateHasSpecValues : Obligations.ResetStateHasSpecValues := by
  refine ⟨fun r => ?_, rfl, rfl, rfl, rfl, rfl, rfl, rfl, rfl⟩
  rw [State.reset_eq_hostReset]
  exact State.readReg_hostReset _ r

/-- Settles O51: the failed load's reset leaves HALTED, and every step starts RUNNING. -/
theorem failedLoadNeverRuns : Obligations.FailedLoadNeverRuns := by
  intro s m
  refine ⟨rfl, rfl, State.readReg_hostReset _, rfl, rfl, fun t h => ?_⟩
  obtain ⟨hrun, -⟩ := step_effect h
  cases hrun

/-- Settles O33: the port's codes are those of the two tables, one case per value. -/
theorem statusPortShowsCodes : Obligations.StatusPortShowsCodes := by
  intro s
  refine ⟨?_, ?_, rfl, rfl, rfl, rfl⟩
  · change s.runState.code = _
    cases s.runState <;> rfl
  · change s.errKind.code = _
    cases s.errKind <;> rfl

end Sys2Proof.Machine
end

section
/-! Clean lines: when a step has a next state, and where it takes `ip` (spec/10_state.md R13 to R17, R135). -/

namespace Sys2Proof.Machine

/-- Decoding refuses a line exactly for a byte 0x00 in it (R17, log 7). -/
theorem decode_eq_padByte_iff {line : Line} : decode line = .error .padByte ↔ (0x00 : Byte) ∈ line := by
  have hany : line.any isPad = true ↔ (0x00 : Byte) ∈ line := by simp [isPad]
  rw [← hany]
  unfold decode
  split
  · simp_all
  · next h => split <;> simp [h]

/-- The step of a RUNNING state with a line at `ip` (R95, R98). -/
theorem step_of_fetch {s : State} {line : Line} (hrun : s.runState = .running) (hfetch : s.fetch = some line) :
    step s = stepLine line s := by
  simp [step, hrun, hfetch]

/-- The step of a RUNNING state past the end (R96, R98). -/
theorem step_of_fetch_none {s : State} (hrun : s.runState = .running) (hfetch : s.fetch = none) :
    step s = .next s.halt := by
  simp [step, hrun, hfetch]

/-- Settles O32. -/
theorem padByteInLineFaults : Obligations.PadByteInLineFaults := by
  intro s line hrun hf hpad
  rw [step_of_fetch hrun hf, stepLine, decode_eq_padByte_iff.mpr hpad]

/-- Format RS has a next state where a line stands at `ip` (R70). -/
theorem execRS_isNext {s : State} {line : Line} (hfetch : s.fetch = some line) (f : Word → Word → Word)
    (dst src : Operand) : ∃ t, execRS f dst src s = .next t := by
  unfold execRS
  split
  · exact ⟨_, raise_of_fetch _ hfetch⟩
  · split
    · exact ⟨_, raise_of_fetch _ hfetch⟩
    · exact ⟨_, rfl⟩

/-- Every meaning has a next state where a line stands at `ip` (R95, R112). -/
theorem exec_isNext {s : State} {line : Line} (hfetch : s.fetch = some line) (i : Instr) :
    ∃ t, exec i s = .next t := by
  cases i with
  | j target =>
    cases target with
    | reg r => exact ⟨_, raise_of_fetch _ hfetch⟩
    | imm v => exact ⟨_, rfl⟩
    | text x => exact ⟨_, raise_of_fetch _ hfetch⟩
  | prt v => exact ⟨_, exec_prt v s⟩
  | _ => exact execRS_isNext hfetch _ _ _

/-- A line without a byte 0x00 at `ip` has a next state (R95, R107). -/
theorem stepLine_isNext {s : State} {line : Line} (hfetch : s.fetch = some line) (hclean : (0x00 : Byte) ∉ line) :
    ∃ t, stepLine line s = .next t := by
  unfold stepLine
  split
  · exact exec_isNext hfetch _
  · exact ⟨_, raise_of_fetch _ hfetch⟩
  · next hpad => exact absurd (decode_eq_padByte_iff.mp hpad) hclean

/-- A clean line holds neither 0x00 nor 0x0A (R17). -/
theorem lineOk_iff {line : Line} : lineOk line = true ↔ ∀ b ∈ line, b ≠ 0x00 ∧ b ≠ 0x0A := by
  simp [lineOk]

/-- What the form of the store says: few enough lines, each of them clean (R5, R17). -/
theorem Memory.wf_iff {m : Memory} :
    m.wf = true ↔ m.length ≤ Config.progCap ∧ ∀ line ∈ m, lineOk line = true := by
  simp [Memory.wf]

/-- Settles O38: the fetched line is clean, so it is executed or raises; without a line the block halts. -/
theorem runningBlockAlwaysSteps : Obligations.RunningBlockAlwaysSteps := by
  intro s hrun hwf
  cases hf : s.fetch with
  | none => exact ⟨_, step_of_fetch_none hrun hf⟩
  | some line =>
    have hok : lineOk line = true := (Memory.wf_iff.mp hwf).2 line (State.mem_of_fetch hf)
    rw [step_of_fetch hrun hf]
    exact stepLine_isNext hf fun h0 => (lineOk_iff.mp hok _ h0).1 rfl

/-- Advancing `ip` off a line of a store within the bounds of R5 does not wrap (R15). -/
theorem advanceIp_toNat {s : State} {line : Line} (hwf : s.prog.wf = true) (hfetch : s.fetch = some line) :
    (s.ip + 1).toNat = s.ip.toNat + 1 := by
  have hlt : s.ip.toNat < s.progLen := s.fetch_isSome_iff.mp (by simp [hfetch])
  have hcap : s.progLen ≤ 2147483647 := (Memory.wf_iff.mp hwf).1
  rw [BitVec.toNat_add_of_lt]
  · rfl
  · change s.ip.toNat + 1 < 2 ^ 32
    omega

/-- Settles O39: `write` and `print` advance, `jump` sets, and the two effects that halt leave `ip`. -/
theorem everyStepMovesIpOnce : Obligations.EveryStepMovesIpOnce := by
  intro s t hwf h
  obtain ⟨hrun, heff⟩ := step_effect h
  cases heff with
  | halt => exact ⟨by simp, fun _ => rfl⟩
  | error => exact ⟨by simp, fun _ => rfl⟩
  | write v hf => exact ⟨fun _ => .inl (advanceIp_toNat hwf hf), by simp [hrun]⟩
  | jump hf hd => exact ⟨fun _ => .inr ⟨_, _, hf, hd, rfl⟩, by simp [hrun]⟩
  | print hf => exact ⟨fun _ => .inl (advanceIp_toNat hwf hf), by simp [hrun]⟩

end Sys2Proof.Machine
end

section
/-! The canonical line is clean (spec/10_state.md R17, spec/30_encoding.md R64). -/

namespace Sys2Proof

open Sys2Proof.Machine

/-- Tokens without the bytes R17 excludes make a line without them: the separator is a space. -/
theorem lineOk_joinTokens {ts : List Token} (h : ∀ t ∈ ts, lineOk t = true) : lineOk (joinTokens ts) = true := by
  induction ts using joinTokens.induct with
  | case1 => rfl
  | case2 t => exact h t (by simp)
  | case3 t u ts ih =>
    have ht : lineOk t = true := h t (by simp)
    have hrest : lineOk (joinTokens (u :: ts)) = true := ih fun x hx => h x (List.mem_cons_of_mem _ hx)
    simp_all [joinTokens, lineOk]

/-- Mnemonics are clean (R50). -/
theorem lineOk_opcodeBytes (o : Opcode) : lineOk o.bytes = true := by
  cases o <;> decide

/-- Canonical register names are clean (R10). -/
theorem lineOk_regName (i : Reg) : lineOk (regName i) = true := by
  revert i
  decide

/-- Text made of token bytes is clean: the pad byte and the delimiter 0x0A are no token bytes (R46). -/
theorem lineOk_of_tokenBytes {t : Token} (h : t.all isTokenByte = true) : lineOk t = true := by
  rw [lineOk_iff]
  intro b hb
  have hbyte : isTokenByte b = true := List.all_eq_true.mp h b hb
  constructor
  · rintro rfl
    exact absurd hbyte (by decide)
  · rintro rfl
    exact absurd hbyte (by decide)

/-- A decimal digit is neither 0x00 nor 0x0A (R56). -/
theorem ne_excluded_of_isDigit {b : Byte} (h : isDigit b = true) : b ≠ 0x00 ∧ b ≠ 0x0A := by
  constructor
  · rintro rfl
    exact absurd h (by decide)
  · rintro rfl
    exact absurd h (by decide)

/-- Decimal text is clean: digits, and a minus sign before them (R92). -/
theorem lineOk_dec (v : Word) : lineOk (dec v) = true := by
  have hdigits : lineOk (decNat 9 v.toInt.natAbs) = true :=
    lineOk_iff.mpr fun b hb => ne_excluded_of_isDigit (decNat_digits _ _ b hb)
  unfold dec
  split
  · simpa [lineOk] using hdigits
  · exact hdigits

/-- A well-formed operand's canonical token is clean (R64). -/
theorem Operand.lineOk_token {o : Operand} (h : o.wf = true) : lineOk o.token = true := by
  cases o with
  | reg i => exact lineOk_regName i
  | imm v => exact lineOk_dec v
  | text t => exact lineOk_of_tokenBytes (Bool.and_eq_true_iff.mp h).1

/-- The canonical token of a well-formed PRT operand is clean (R64). -/
theorem PrtValue.lineOk_token {p : PrtValue} (h : p.wf = true) : lineOk p.token = true := by
  cases p with
  | reg r => exact lineOk_regName r
  | text t => exact lineOk_of_tokenBytes (Bool.and_eq_true_iff.mp h).1

/-- The tokens of a well-formed two-operand instruction are clean. -/
theorem lineOk_of_mem_rsTokens {o : Opcode} {dst src : Operand} (h : rsWf dst src = true) :
    ∀ t ∈ [o.bytes, dst.token, src.token], lineOk t = true := by
  obtain ⟨⟨hdst, hsrc⟩, -⟩ : (dst.wf = true ∧ src.wf = true) ∧ _ := by
    simpa only [rsWf, Bool.and_eq_true] using h
  simp [lineOk_opcodeBytes, Operand.lineOk_token hdst, Operand.lineOk_token hsrc]

/-- The tokens of a well-formed instruction are clean, one format at a time (R49). -/
theorem Instr.lineOk_of_mem_tokens {i : Instr} (h : i.wf = true) : ∀ t ∈ i.tokens, lineOk t = true := by
  cases i with
  | j target => simp [Instr.tokens, lineOk_opcodeBytes, Operand.lineOk_token (o := target) h]
  | prt value => simp [Instr.tokens, lineOk_opcodeBytes, PrtValue.lineOk_token (p := value) h]
  | _ => exact lineOk_of_mem_rsTokens h

/-- Settles O10: leaving absent operands out leaves a list of clean tokens. -/
theorem encodedLineIsClean : Obligations.EncodedLineIsClean := fun _ h =>
  lineOk_joinTokens fun t ht => Instr.lineOk_of_mem_tokens h t (List.mem_of_mem_filter ht)

end Sys2Proof
end

section
/-! The slots of the program store, and error entry where the store has no line (spec/20_memory.md R32, R33). -/

namespace Sys2Proof.Machine

/-- The pad bytes fill a slot up to `LINE_MAX + 1` bytes (R33). -/
theorem length_slotOfLine {line : Line} (h : line.length ≤ Config.lineMax) :
    (slotOfLine line).length = Config.lineMax + 1 := by
  simp only [slotOfLine, List.length_append, List.length_replicate]
  omega

/-- A slot begins with the text of its line (R33). -/
theorem slotOfLine_getElem?_text {line : Line} {k : Nat} (h : k < line.length) :
    (slotOfLine line)[k]? = (line)[k]? :=
  List.getElem?_append_left h

/-- After the text a slot holds pad bytes up to its end (R33). -/
theorem slotOfLine_getElem?_pad {line : Line} {k : Nat} (htext : line.length ≤ k) (hend : k ≤ Config.lineMax) :
    (slotOfLine line)[k]? = some 0x00 := by
  have hk : k - line.length < Config.lineMax + 1 - line.length := by omega
  rw [slotOfLine, List.getElem?_append_right htext, List.getElem?_replicate_of_lt hk]

/-- A line without a pad byte is read back from its slot: the text is taken whole, and of the pad bytes none (R33). -/
theorem lineOfSlot_slotOfLine {line : Line} (h : (0x00 : Byte) ∉ line) : lineOfSlot (slotOfLine line) = line := by
  have htext : ∀ b ∈ line, (!isPad b) = true := by
    intro b hb
    have hne : b ≠ 0x00 := fun e => h (e ▸ hb)
    simpa [isPad] using hne
  have hpad : ∀ n, (List.replicate n (0x00 : Byte)).takeWhile (fun b => !isPad b) = [] := fun n => by
    cases n <;> rfl
  rw [lineOfSlot, slotOfLine, List.takeWhile_append_of_pos htext, hpad, List.append_nil]

/-- Settles O12: a clean line holds no pad byte, so its slot gives it back. -/
theorem slotHoldsItsLine : Obligations.SlotHoldsItsLine := by
  intro line hok hlen
  have hclean : (0x00 : Byte) ∉ line := fun h0 => (lineOk_iff.mp hok _ h0).1 rfl
  exact ⟨length_slotOfLine hlen, fun _ => slotOfLine_getElem?_text, fun _ => slotOfLine_getElem?_pad,
    lineOfSlot_slotOfLine hclean⟩

/-- Error entry where no line stands at `ip` (R32, log 6). -/
theorem raise_of_fetch_none {s : State} (k : ErrKind) (h : s.fetch = none) : raise k s = .fault .noLineAtIp := by
  simp [raise, h]

/-- What the operands decide of a meaning, in any state: the error they give is raised, or the instruction completes
(R59, R60). -/
def ErrsOrCompletes (i : Instr) (s : State) : Prop :=
  (∃ k, instrError i = some k ∧ exec i s = raise k s) ∨ (instrError i = none ∧ ∃ t, exec i s = .next t)

/-- Format RS errs on a destination that is no register, then on a source that is unresolvable (R70). -/
theorem errsOrCompletes_of_rsOperands {i : Instr} {dst src : Operand} (hrs : i.rsOperands = some (dst, src))
    (s : State) : ErrsOrCompletes i s := by
  rw [ErrsOrCompletes, exec_eq_execRS hrs]
  cases dst with
  | reg rd =>
    cases src with
    | reg rs => exact .inr ⟨by simp [instrError, hrs], _, execRS_of_source rfl⟩
    | imm v => exact .inr ⟨by simp [instrError, hrs], _, execRS_of_source rfl⟩
    | text x => exact .inl ⟨.invalidOperand, by simp [instrError, hrs], rfl⟩
  | imm v => exact .inl ⟨.invalidDestination, by simp [instrError, hrs], rfl⟩
  | text x => exact .inl ⟨.invalidDestination, by simp [instrError, hrs], rfl⟩

/-- J errs on all but a literal, and PRT never (R85, R90). -/
theorem errsOrCompletes (i : Instr) (s : State) : ErrsOrCompletes i s := by
  cases i with
  | j target =>
    cases target with
    | reg r => exact .inl ⟨_, rfl, rfl⟩
    | imm v => exact .inr ⟨rfl, _, rfl⟩
    | text x => exact .inl ⟨_, rfl, rfl⟩
  | prt v => exact .inr ⟨rfl, _, exec_prt v s⟩
  | _ => exact errsOrCompletes_of_rsOperands rfl s

/-- An instruction whose operands give an error enters it, whatever the state (R60, R111). -/
theorem exec_of_instrError {i : Instr} {k : ErrKind} (h : instrError i = some k) (s : State) :
    exec i s = raise k s := by
  rcases errsOrCompletes i s with ⟨k', hk, hx⟩ | ⟨hn, -⟩
  · rw [h] at hk
    rw [hx, Option.some.inj hk]
  · rw [h] at hn
    cases hn

/-- An instruction whose operands give no error completes, whatever the state (R60). -/
theorem exec_isNext_of_instrError_none {i : Instr} (h : instrError i = none) (s : State) :
    ∃ t, exec i s = .next t := by
  rcases errsOrCompletes i s with ⟨k, hk, -⟩ | ⟨-, hx⟩
  · rw [h] at hk
    cases hk
  · exact hx

/-- Settles O28: only error entry reads the line at `ip`, and it faults where there is none. -/
theorem errorWithoutLineFaults : Obligations.ErrorWithoutLineFaults := by
  intro s hfetch
  refine ⟨fun i k herr => ?_, fun i hnone => exec_isNext_of_instrError_none hnone s⟩
  rw [exec_of_instrError herr, raise_of_fetch_none k hfetch]

end Sys2Proof.Machine
end

section
/-! The tokens of a line made of tokens and delimiters (spec/30_encoding.md R46 to R48). -/

namespace Sys2Proof.Machine

/-- The tokenizer's delimiters are those R46 lists. -/
theorem isDelim_iff {b : Byte} : isDelim b = true ↔ b ∈ delimBytes := by
  simp [isDelim, delimBytes, or_assoc]

theorem isDelim_eq_false_iff {b : Byte} : isDelim b = false ↔ b ∉ delimBytes := by
  rw [← isDelim_iff, Bool.not_eq_true]

theorem IsDelims.isDelim {ds : List Byte} (h : IsDelims ds) : ∀ b ∈ ds, isDelim b = true :=
  fun b hb => isDelim_iff.mpr (h b hb)

theorem IsToken.no_delim {t : Token} (h : IsToken t) : ∀ b ∈ t, isDelim b = false :=
  fun b hb => isDelim_eq_false_iff.mpr (h.2 b hb)

/-- A run of delimiters holds no token (R47). -/
theorem tokensOf_eq_nil_of_delims {ds : List Byte} (h : IsDelims ds) : tokensOf ds = [] := by
  simpa [tokensOf, tokensFrom] using tokensOf_delims h.isDelim []

/-- A token, and after it delimiters or the end of the line: it is the first token, and the tokens of the rest follow
(R47). -/
theorem tokensOf_token_delims {ds rest : List Byte} {t : Token} (ht : IsToken t) (hds : IsDelims ds)
    (hend : ds ≠ [] ∨ rest = []) : tokensOf (t ++ (ds ++ rest)) = t :: tokensOf rest := by
  cases ds with
  | nil =>
    obtain rfl : rest = [] := hend.resolve_left (by simp)
    simpa [tokensOf, tokensFrom] using tokensOf_token ht.1 ht.no_delim
  | cons d ds =>
    have hd : isDelim d = true := hds.isDelim d List.mem_cons_self
    have hds' : ∀ b ∈ ds, isDelim b = true := fun b hb => hds.isDelim b (List.mem_cons_of_mem d hb)
    rw [List.cons_append, tokensOf_token_delim ht.1 ht.no_delim hd, tokensOf_delims hds']

/-- A token with delimiters, or none, up to the end of the line (R47). -/
theorem tokensOf_token_delims_end {ds : List Byte} {t : Token} (ht : IsToken t) (hds : IsDelims ds) :
    tokensOf (t ++ ds) = [t] := by
  simpa [tokensOf, tokensFrom] using tokensOf_token_delims ht hds (.inr rfl)

/-- Tokenizing answers the first three of a line's tokens (R48). -/
theorem tokenize_of_tokensOf {line : Line} {ts : List Token} (h : tokensOf line = ts) :
    tokenize line = ⟨ts.getD 0 [], ts.getD 1 [], ts.getD 2 []⟩ := by
  rw [tokenize, h]

/-- Settles O1: each shape is its tokens taken off the line from the left, one after the other. -/
theorem tokenizeTakesFirstThreeTokens : Obligations.TokenizeTakesFirstThreeTokens := by
  intro d0 d1 d2 d3 rest t0 t1 t2 hd0 hd1 hd2 hd3 ht0 ht1 ht2
  have hskip (line : Line) : tokensOf (d0 ++ line) = tokensOf line := tokensOf_delims hd0.isDelim line
  refine ⟨tokenize_of_tokensOf (tokensOf_eq_nil_of_delims hd0), ?_, fun h1 => ?_, fun h1 h2 h3 => ?_⟩
  · have h : tokensOf (d0 ++ t0 ++ d1) = [t0] := by
      rw [List.append_assoc, hskip, tokensOf_token_delims_end ht0 hd1]
    exact tokenize_of_tokensOf h
  · have h : tokensOf (d0 ++ t0 ++ d1 ++ t1 ++ d2) = [t0, t1] := by
      simp only [List.append_assoc]
      rw [hskip, tokensOf_token_delims ht0 hd1 (.inl h1), tokensOf_token_delims_end ht1 hd2]
    exact tokenize_of_tokensOf h
  · have h : tokensOf (d0 ++ t0 ++ d1 ++ t1 ++ d2 ++ t2 ++ d3 ++ rest) = t0 :: t1 :: t2 :: tokensOf rest := by
      simp only [List.append_assoc]
      rw [hskip, tokensOf_token_delims ht0 hd1 (.inl h1), tokensOf_token_delims ht1 hd2 (.inl h2),
        tokensOf_token_delims ht2 hd3 h3]
    exact tokenize_of_tokensOf h

end Sys2Proof.Machine
end

section
/-! The Opcode Table, the register comparator, and what decoding makes of them (spec/30_encoding.md R50 to R55). -/

namespace Sys2Proof

open Sys2Proof.Machine

/-- Lookup is equality with the mnemonic over the whole token (R51). -/
theorem lookup_eq_some_iff {t : Token} {o : Opcode} : lookup t = some o ↔ t = o.bytes := by
  constructor
  · intro h
    rw [lookup] at h
    have hrow := List.find?_some h
    exact (beq_iff_eq.mp hrow).symm
  · rintro rfl
    exact lookup_bytes o

theorem lookup_eq_none_iff {t : Token} : lookup t = none ↔ t ∉ opcodeTable.map Opcode.bytes := by
  simp [lookup, List.find?_eq_none]

theorem any_isPad_of_clean {line : Line} (hclean : (0x00 : Byte) ∉ line) : line.any isPad = false :=
  List.any_eq_false.mpr fun _ hb hpad => hclean (beq_iff_eq.mp hpad ▸ hb)

/-- A line whose token 0 has a row, without a byte 0x00, is that row's instruction (R51, R60). -/
theorem decode_of_lookup {line : Line} {o : Opcode} (hclean : (0x00 : Byte) ∉ line)
    (h : lookup (tokenize line).t0 = some o) :
    decode line = .ok (instrOf o (tokenize line).t1 (tokenize line).t2) := by
  simp [decode, any_isPad_of_clean hclean, h]

/-- A line whose token 0 has no row, without a byte 0x00, is an UnknownOpcode (R51). -/
theorem decode_of_lookup_none {line : Line} (hclean : (0x00 : Byte) ∉ line)
    (h : lookup (tokenize line).t0 = none) : decode line = .error .unknownOpcode := by
  simp [decode, any_isPad_of_clean hclean, h]

/-- Which lines decode, and to what. -/
theorem decode_eq_ok_iff {line : Line} {i : Instr} :
    decode line = .ok i ↔ (0x00 : Byte) ∉ line ∧ ∃ o, lookup (tokenize line).t0 = some o ∧
      instrOf o (tokenize line).t1 (tokenize line).t2 = i := by
  by_cases hpad : (0x00 : Byte) ∈ line
  · rw [decode_eq_padByte_iff.mpr hpad]
    exact iff_of_false nofun fun h => h.1 hpad
  · rw [and_iff_right hpad]
    cases hrow : lookup (tokenize line).t0 with
    | some o => simp [decode_of_lookup hpad hrow]
    | none => simp [decode_of_lookup_none hpad hrow]

/-- Settles O2: the nine mnemonics are the nine rows' bytes. -/
theorem lookupMatchesWholeMnemonic : Obligations.LookupMatchesWholeMnemonic := by
  refine ⟨fun t => ⟨lookup_eq_some_iff, lookup_eq_some_iff, lookup_eq_some_iff, lookup_eq_some_iff,
    lookup_eq_some_iff, lookup_eq_some_iff, lookup_eq_some_iff, lookup_eq_some_iff, lookup_eq_some_iff,
    lookup_eq_none_iff⟩, fun _ => decode_of_lookup_none⟩

/-- The comparator looks at the first four bytes and nothing else (R55). -/
theorem regMatch_eq_some_iff {tok : Token} {i : Reg} : regMatch tok = some i ↔ tok.take 4 = regName i := by
  constructor
  · intro h
    simpa [Config.nameLen] using List.find?_some h
  · intro h
    have htake : tok.take Config.nameLen = (regName i).take Config.nameLen := h
    rw [← regMatch_regName i, regMatch, regMatch, htake]

/-- A token whose first four bytes are a name has four bytes. -/
theorem four_le_length_of_take_eq_regName {tok : Token} {i : Reg} (h : tok.take 4 = regName i) : 4 ≤ tok.length := by
  have hlen := congrArg List.length h
  simp only [List.length_take, regName, List.length_cons, List.length_nil] at hlen
  omega

/-- Settles O3: no cell matches exactly when the comparator answers none. -/
theorem registerNameIsFirstFourBytes : Obligations.RegisterNameIsFirstFourBytes := by
  intro tok
  have hsome (i : Reg) : regMatch tok = some i ↔ 4 ≤ tok.length ∧ tok.take 4 = regName i :=
    regMatch_eq_some_iff.trans ⟨fun h => ⟨four_le_length_of_take_eq_regName h, h⟩, fun h => h.2⟩
  refine ⟨hsome, ?_⟩
  rw [Option.eq_none_iff_forall_ne_some]
  exact forall_congr' fun i => not_congr (hsome i)

end Sys2Proof
end

section
/-! Decimal literals: what they denote, and that register names are none (spec/30_encoding.md R54 to R57). -/

namespace Sys2Proof

open Sys2Proof.Machine

/-- A digit string is not empty and all its bytes are ASCII digits (R56). -/
theorem allDigits_iff {ds : List Byte} :
    allDigits ds = true ↔ ds ≠ [] ∧ ∀ b ∈ ds, 0x30 ≤ b.toNat ∧ b.toNat ≤ 0x39 := by
  simp [allDigits, isDigit]

/-- The fold over the digits is the base-10 value (R57). -/
theorem digitsValue_eq_ofDigits (ds : List Byte) :
    digitsValue ds = Nat.ofDigits 10 (ds.reverse.map fun b => b.toNat - 0x30) := by
  induction ds using List.reverseRecOn with
  | nil => rfl
  | append_singleton ds b ih =>
    rw [digitsValue_append, ih, List.reverse_append, List.reverse_singleton, List.singleton_append, List.map_cons,
      Nat.ofDigits_cons, Nat.add_comm]

/-- What a digit string denotes is the value the model computes. -/
theorem digitsDenote_iff {ds : List Byte} {n : Nat} :
    DigitsDenote ds n ↔ allDigits ds = true ∧ n = digitsValue ds := by
  rw [DigitsDenote, allDigits_iff, digitsValue_eq_ofDigits, and_assoc]

/-- What the token's sign makes of the number its digits denote (R56, R57). -/
def SignedValue (sign : List Byte) (m : Nat) (z : Int) : Prop :=
  (sign = [0x2D] ∧ z = -(m : Int)) ∨ ((sign = [] ∨ sign = [0x2B]) ∧ z = (m : Int))

theorem litInt_minus {ds : List Byte} (h : allDigits ds = true) :
    litInt (0x2D :: ds) = some (-(digitsValue ds : Int)) := by
  simp [litInt, h]

theorem litInt_plus {ds : List Byte} (h : allDigits ds = true) :
    litInt (0x2B :: ds) = some (digitsValue ds : Int) := by
  simp [litInt, h]

/-- Digits alone: the first of them is no sign (R56). -/
theorem litInt_digits {ds : List Byte} (h : allDigits ds = true) : litInt ds = some (digitsValue ds : Int) := by
  cases ds with
  | nil => cases h
  | cons b ds =>
    have hb : 0x30 ≤ b.toNat := ((allDigits_iff.mp h).2 b List.mem_cons_self).1
    have hminus : b ≠ 0x2D := by
      rintro rfl
      exact absurd hb (by decide)
    have hplus : b ≠ 0x2B := by
      rintro rfl
      exact absurd hb (by decide)
    rw [litInt, if_neg hminus, if_neg hplus, if_pos h]

/-- The grammar of R56 with the integer it denotes, before the range (R57). -/
theorem litInt_eq_some_iff {tok : Token} {z : Int} :
    litInt tok = some z ↔
      ∃ sign ds, tok = sign ++ ds ∧ allDigits ds = true ∧ SignedValue sign (digitsValue ds) z := by
  constructor
  · intro h
    unfold litInt at h
    split at h
    · cases h
    · next b ds =>
      split at h
      · next hb =>
        subst hb
        rw [Option.ite_none_right_eq_some] at h
        exact ⟨[0x2D], ds, rfl, h.1, .inl ⟨rfl, (Option.some.inj h.2).symm⟩⟩
      · split at h
        · next hb =>
          subst hb
          rw [Option.ite_none_right_eq_some] at h
          exact ⟨[0x2B], ds, rfl, h.1, .inr ⟨.inr rfl, (Option.some.inj h.2).symm⟩⟩
        · rw [Option.ite_none_right_eq_some] at h
          exact ⟨[], b :: ds, rfl, h.1, .inr ⟨.inl rfl, (Option.some.inj h.2).symm⟩⟩
  · rintro ⟨sign, ds, rfl, hds, ⟨rfl, rfl⟩ | ⟨rfl | rfl, rfl⟩⟩
    · exact litInt_minus hds
    · exact litInt_digits hds
    · exact litInt_plus hds

/-- An integer in the 32-bit range is the signed value of its residue (R6). -/
theorem toInt_toS32 {z : Int} (hlo : -2147483648 ≤ z) (hhi : z ≤ 2147483647) : (toS32 z).toInt = z := by
  rw [toS32, BitVec.toInt_ofInt]
  exact Int.bmod_eq_of_le (by simpa using hlo) (by simp; omega)

/-- A literal's value is the integer it denotes, where that lies in the 32-bit range (R57). -/
theorem litValue_eq_some_iff {tok : Token} {v : Word} :
    litValue tok = some v ↔ ∃ z, litInt tok = some z ∧ -2147483648 ≤ z ∧ z ≤ 2147483647 ∧ v.toInt = z := by
  constructor
  · intro h
    unfold litValue at h
    split at h
    · next z hz =>
      rw [Option.ite_none_right_eq_some] at h
      obtain ⟨⟨hlo, hhi⟩, hv⟩ := h
      exact ⟨z, hz, hlo, hhi, by rw [← Option.some.inj hv, toInt_toS32 hlo hhi]⟩
    · cases h
  · rintro ⟨z, hz, hlo, hhi, hv⟩
    have hword : toS32 z = v := BitVec.eq_of_toInt_eq ((toInt_toS32 hlo hhi).trans hv.symm)
    simp [litValue, hz, hlo, hhi, hword]

/-- Settles O4: the grammar from `litInt`, the range from `litValue`. -/
theorem literalIsSignedDecimalInRange : Obligations.LiteralIsSignedDecimalInRange := by
  intro tok v
  rw [litValue_eq_some_iff]
  constructor
  · rintro ⟨z, hz, hrange⟩
    obtain ⟨sign, ds, htok, hds, hsign⟩ := litInt_eq_some_iff.mp hz
    exact ⟨sign, ds, digitsValue ds, z, htok, digitsDenote_iff.mpr ⟨hds, rfl⟩, hsign, hrange⟩
  · rintro ⟨sign, ds, m, z, htok, hdenote, hsign, hrange⟩
    obtain ⟨hds, rfl⟩ := digitsDenote_iff.mp hdenote
    exact ⟨z, litInt_eq_some_iff.mpr ⟨sign, ds, htok, hds, hsign⟩, hrange⟩

/-- A token that begins with `R` has no sign and no digits (R54). -/
theorem litInt_cons_letterR (ds : List Byte) : litInt (0x52 :: ds) = none := by
  simp [litInt, allDigits, isDigit]

/-- No register name is a literal (R54). -/
theorem litValue_eq_none_of_regMatch {tok : Token} {i : Reg} (h : regMatch tok = some i) : litValue tok = none := by
  have htake : tok.take 4 = regName i := regMatch_eq_some_iff.mp h
  cases tok with
  | nil => cases htake
  | cons b bs =>
    obtain rfl : b = 0x52 := (List.cons.inj htake).1
    rw [litValue, litInt_cons_letterR]

/-- Settles O5: the three forms of `resolve`, and that a name is no literal. -/
theorem resolveLooksUpRegistersFirst : Obligations.ResolveLooksUpRegistersFirst := by
  intro tok
  refine ⟨fun i hi => ⟨by simp [resolve, hi], litValue_eq_none_of_regMatch hi⟩, fun v hv => ?_,
    fun hr hl => by simp [resolve, hr, hl]⟩
  have hr : regMatch tok = none := by
    by_contra hne
    obtain ⟨i, hi⟩ := Option.ne_none_iff_exists'.mp hne
    rw [litValue_eq_none_of_regMatch hi] at hv
    cases hv
  exact ⟨by simp [resolve, hr, hv], hr⟩

/-- A numeral is a digit string (R56, R92). -/
theorem allDigits_decNat (fuel n : Nat) : allDigits (decNat fuel n) = true := by
  simpa [allDigits, decNat_ne_nil] using decNat_digits fuel n

/-- The decimal text of a value denotes that value (R57, R92): ten digits hold the magnitude of 32 bits. -/
theorem litInt_dec (v : Word) : litInt (dec v) = some v.toInt := by
  have hlo : -2147483648 ≤ v.toInt := BitVec.le_toInt v
  have hhi : v.toInt < 2147483648 := BitVec.toInt_lt
  have hmag : v.toInt.natAbs < 10 ^ (9 + 1) := by omega
  have hval : digitsValue (decNat 9 v.toInt.natAbs) = v.toInt.natAbs := digitsValue_decNat 9 _ hmag
  unfold dec
  split
  · rw [litInt_minus (allDigits_decNat _ _), hval]
    congr 1
    omega
  · rw [litInt_digits (allDigits_decNat _ _), hval]
    congr 1
    omega

/-- Settles O7: the text denotes the value, and every 32-bit value lies in the range. -/
theorem decimalTextReadsBack : Obligations.DecimalTextReadsBack := fun v =>
  litValue_eq_some_iff.mpr ⟨v.toInt, litInt_dec v, BitVec.le_toInt v, Int.le_of_lt_add_one BitVec.toInt_lt, rfl⟩

end Sys2Proof
end

section
/-! What the tokenizer and the resolver answer is well formed, and the canonical line of a well-formed instruction
decodes to it (spec/30_encoding.md R47, R48, R54, R64). -/

namespace Sys2Proof

open Sys2Proof.Machine

/-- A token byte is neither a delimiter nor the pad byte (R46). -/
theorem isTokenByte_iff {b : Byte} : isTokenByte b = true ↔ isDelim b = false ∧ b ≠ 0x00 := by
  simp [isTokenByte, isPad]

/-- The tokens of a line without a byte 0x00 are not empty and made of token bytes (R46, R47). -/
theorem mem_tokensOf {line : Line} (hclean : (0x00 : Byte) ∉ line) {t : Token} (h : t ∈ tokensOf line) :
    t ≠ [] ∧ t.all isTokenByte = true := by
  obtain ⟨hne, hbytes⟩ := tokensFrom_bytes [] line (by simp) t h
  refine ⟨hne, List.all_eq_true.mpr fun b hb => ?_⟩
  obtain ⟨hdelim, hmem⟩ := hbytes b hb
  have hline : b ∈ line := hmem.resolve_left List.not_mem_nil
  exact isTokenByte_iff.mpr ⟨hdelim, fun h0 => hclean (h0 ▸ hline)⟩

/-- Every token the tokenizer answers is made of token bytes; an absent one holds none (R48). -/
theorem tokensOf_getD_tokenBytes {line : Line} (hclean : (0x00 : Byte) ∉ line) (n : Nat) :
    ((tokensOf line).getD n []).all isTokenByte = true := by
  rw [List.getD_eq_getElem?_getD]
  cases h : (tokensOf line)[n]? with
  | none => rfl
  | some t => exact (mem_tokensOf hclean (List.mem_of_getElem? h)).2

/-- Where token 1 is absent, token 2 is (R48): no token of a line is empty. -/
theorem tokenize_t2_eq_nil {line : Line} (hclean : (0x00 : Byte) ∉ line) (h : (tokenize line).t1 = []) :
    (tokenize line).t2 = [] := by
  have hlen : (tokensOf line).length ≤ 1 := by
    by_contra hlong
    have hlt : 1 < (tokensOf line).length := by omega
    refine (mem_tokensOf hclean (List.getElem_mem hlt)).1 ?_
    rwa [← List.getD_eq_getElem _ [] hlt]
  exact List.getD_eq_default _ _ (by omega)

/-- A token of token bytes resolves to a well-formed operand (R54). -/
theorem resolve_wf {t : Token} (h : t.all isTokenByte = true) : (resolve t).wf = true := by
  rcases resolve_cases t with ⟨i, -, hi⟩ | ⟨v, -, -, hv⟩ | ⟨-, -, ht⟩
  · rw [hi]; rfl
  · rw [hv]; rfl
  · simp [ht, Operand.wf, h]

/-- A token of token bytes is a well-formed operand of PRT (R59). -/
theorem resolvePrt_wf {t : Token} (h : t.all isTokenByte = true) : (resolvePrt t).wf = true := by
  cases hr : regMatch t with
  | some r => simp [resolvePrt, hr, PrtValue.wf]
  | none => simp [resolvePrt, hr, PrtValue.wf, h]

theorem dec_ne_nil (v : Word) : dec v ≠ [] := by
  unfold dec
  split
  · exact List.cons_ne_nil _ _
  · exact decNat_ne_nil _ _

/-- A present token resolves to an operand whose canonical token is present (R53, R64). -/
theorem resolve_token_ne_nil {t : Token} (h : t ≠ []) : (resolve t).token ≠ [] := by
  rcases resolve_cases t with ⟨i, -, hi⟩ | ⟨v, -, -, hv⟩ | ⟨-, -, ht⟩
  · rw [hi]; exact List.cons_ne_nil _ _
  · rw [hv]; exact dec_ne_nil v
  · rw [ht]; exact h

/-- What well-formedness of two operands says (R48). -/
theorem rsWf_iff {dst src : Operand} :
    rsWf dst src = true ↔ dst.wf = true ∧ src.wf = true ∧ (dst.token = [] → src.token = []) := by
  simp [rsWf, and_assoc, imp_iff_not_or]

/-- Two tokens of one line resolve to well-formed operands (R48, R54). -/
theorem rsWf_resolve {t1 t2 : Token} (h1 : t1.all isTokenByte = true) (h2 : t2.all isTokenByte = true)
    (habsent : t1 = [] → t2 = []) : rsWf (resolve t1) (resolve t2) = true := by
  refine rsWf_iff.mpr ⟨resolve_wf h1, resolve_wf h2, fun hdst => ?_⟩
  have ht1 : t1 = [] := by
    by_contra hne
    exact resolve_token_ne_nil hne hdst
  rw [habsent ht1]
  rfl

/-- The instruction of an opcode and two tokens of one line is well formed, one format at a time (R49). -/
theorem instrOf_wf (o : Opcode) {t1 t2 : Token} (h1 : t1.all isTokenByte = true) (h2 : t2.all isTokenByte = true)
    (habsent : t1 = [] → t2 = []) : (instrOf o t1 t2).wf = true := by
  cases o with
  | j => exact resolve_wf h1
  | prt => exact resolvePrt_wf h1
  | _ => exact rsWf_resolve h1 h2 habsent

/-- Settles O9: the decoder puts an instruction together from the tokens of one clean line. -/
theorem decodedInstructionIsWellFormed : Obligations.DecodedInstructionIsWellFormed := by
  intro line i h
  obtain ⟨hclean, o, -, rfl⟩ := decode_eq_ok_iff.mp h
  exact instrOf_wf o (tokensOf_getD_tokenBytes hclean 1) (tokensOf_getD_tokenBytes hclean 2)
    (tokenize_t2_eq_nil hclean)

/-- A well-formed operand comes back from its canonical token (R54, R64). -/
theorem resolve_token {o : Operand} (h : o.wf = true) : resolve o.token = o := by
  cases o with
  | reg i => exact resolve_regName i
  | imm v => exact ((resolveLooksUpRegistersFirst (dec v)).2.1 v (decimalTextReadsBack v)).1
  | text t => exact beq_iff_eq.mp (Bool.and_eq_true_iff.mp h).2

/-- A well-formed operand of PRT comes back from its canonical token (R59, R64). -/
theorem resolvePrt_token {p : PrtValue} (h : p.wf = true) : resolvePrt p.token = p := by
  cases p with
  | reg r => simp [PrtValue.token, resolvePrt]
  | text t => exact beq_iff_eq.mp (Bool.and_eq_true_iff.mp h).2

theorem no_delim_of_tokenBytes {t : Token} (h : t.all isTokenByte = true) : ∀ b ∈ t, isDelim b = false :=
  fun b hb => (isTokenByte_iff.mp (List.all_eq_true.mp h b hb)).1

theorem regName_no_delim (i : Reg) : ∀ b ∈ regName i, isDelim b = false := by
  revert i
  decide

/-- No digit is a delimiter (R46, R56). -/
theorem isDelim_eq_false_of_isDigit {b : Byte} (h : isDigit b = true) : isDelim b = false := by
  revert b
  decide

theorem dec_no_delim (v : Word) : ∀ b ∈ dec v, isDelim b = false := by
  have hdigits : ∀ b ∈ decNat 9 v.toInt.natAbs, isDelim b = false :=
    fun b hb => isDelim_eq_false_of_isDigit (decNat_digits _ _ b hb)
  unfold dec
  split
  · exact List.forall_mem_cons.mpr ⟨by decide, hdigits⟩
  · exact hdigits

/-- A well-formed operand's canonical token holds no delimiter (R64). -/
theorem Operand.token_no_delim {o : Operand} (h : o.wf = true) : ∀ b ∈ o.token, isDelim b = false := by
  cases o with
  | reg i => exact regName_no_delim i
  | imm v => exact dec_no_delim v
  | text t => exact no_delim_of_tokenBytes (Bool.and_eq_true_iff.mp h).1

theorem PrtValue.token_no_delim {p : PrtValue} (h : p.wf = true) : ∀ b ∈ p.token, isDelim b = false := by
  cases p with
  | reg r => exact regName_no_delim r
  | text t => exact no_delim_of_tokenBytes (Bool.and_eq_true_iff.mp h).1

/-- Tokens joined by one space are found again (R47, R64). -/
theorem tokensOf_joinTokens {ts : List Token} (h : ∀ t ∈ ts, t ≠ [] ∧ ∀ b ∈ t, isDelim b = false) :
    tokensOf (joinTokens ts) = ts := by
  induction ts using joinTokens.induct with
  | case1 => rfl
  | case2 t =>
    obtain ⟨hne, hbytes⟩ := h t List.mem_cons_self
    exact tokensOf_token hne hbytes
  | case3 t u ts ih =>
    obtain ⟨hne, hbytes⟩ := h t List.mem_cons_self
    rw [joinTokens, tokensOf_token_delim hne hbytes (by decide), ih fun x hx => h x (List.mem_cons_of_mem t hx)]

/-- Leaving empty tokens out of a line of a mnemonic and two operands keeps each token's place, when the second is
absent wherever the first is (R48, R64). -/
theorem filter_present_getD {m a b : Token} (hm : m ≠ []) (habsent : a = [] → b = []) (n : Nat) :
    ([m, a, b].filter fun t => !t.isEmpty).getD n [] = [m, a, b].getD n [] := by
  by_cases ha : a = []
  · obtain rfl := ha
    obtain rfl := habsent rfl
    rcases n with _ | _ | _ | n <;> simp [hm]
  · by_cases hb : b = []
    · subst hb
      rcases n with _ | _ | _ | n <;> simp [hm, ha]
    · simp [hm, ha, hb]

/-- The canonical line of a mnemonic and two operands has them as its tokens (R48, R64). -/
theorem tokenize_joinTokens (o : Opcode) {a b : Token} (ha : ∀ c ∈ a, isDelim c = false)
    (hb : ∀ c ∈ b, isDelim c = false) (habsent : a = [] → b = []) :
    tokenize (joinTokens ([o.bytes, a, b].filter fun t => !t.isEmpty)) = ⟨o.bytes, a, b⟩ := by
  have hdelim : ∀ t ∈ [o.bytes, a, b], ∀ c ∈ t, isDelim c = false :=
    List.forall_mem_cons.mpr ⟨o.bytes_no_delim, List.forall_mem_cons.mpr ⟨ha, List.forall_mem_singleton.mpr hb⟩⟩
  have htokens : ∀ t ∈ [o.bytes, a, b].filter fun t => !t.isEmpty, t ≠ [] ∧ ∀ c ∈ t, isDelim c = false := by
    intro t ht
    obtain ⟨hmem, hpresent⟩ := List.mem_filter.mp ht
    exact ⟨by simpa using hpresent, hdelim t hmem⟩
  rw [tokenize_of_tokensOf (tokensOf_joinTokens htokens)]
  simp only [filter_present_getD o.bytes_ne_nil habsent]
  rfl

/-- Token `n` of an instruction, the empty token where its format has none (R49, R53). -/
def Instr.token (i : Instr) (n : Nat) : Token := i.tokens.getD n []

/-- An absent operand at the end leaves no trace on the canonical line (R48, R53). -/
theorem filter_present_append_absent (ts : List Token) :
    (ts.filter fun t => !t.isEmpty) = (ts ++ [[]]).filter fun t => !t.isEmpty := by
  simp

/-- Every format's canonical line is a mnemonic and two operands, since absent ones are left out (R64). -/
theorem encode_eq (i : Instr) :
    encode i = joinTokens ([i.opcode.bytes, i.token 1, i.token 2].filter fun t => !t.isEmpty) := by
  cases i with
  | j target => exact congrArg joinTokens (filter_present_append_absent [Opcode.j.bytes, target.token])
  | prt value => exact congrArg joinTokens (filter_present_append_absent [Opcode.prt.bytes, value.token])
  | _ => rfl

/-- The operand tokens of a well-formed instruction hold no delimiter (R46, R64). -/
theorem Instr.token_no_delim {i : Instr} (h : i.wf = true) :
    (∀ c ∈ i.token 1, isDelim c = false) ∧ ∀ c ∈ i.token 2, isDelim c = false := by
  have hnone : ∀ c ∈ ([] : Token), isDelim c = false := by simp
  cases i with
  | j target => exact ⟨Operand.token_no_delim (o := target) h, hnone⟩
  | prt value => exact ⟨PrtValue.token_no_delim (p := value) h, hnone⟩
  | _ =>
    obtain ⟨hdst, hsrc, -⟩ := rsWf_iff.mp h
    exact ⟨Operand.token_no_delim hdst, Operand.token_no_delim hsrc⟩

/-- No well-formed instruction has its second operand alone (R48). -/
theorem Instr.token_absent {i : Instr} (h : i.wf = true) : i.token 1 = [] → i.token 2 = [] := by
  cases i with
  | j => exact fun _ => rfl
  | prt => exact fun _ => rfl
  | _ => exact (rsWf_iff.mp h).2.2

/-- A well-formed instruction is put together again from its opcode and tokens (R49, R54). -/
theorem instrOf_token {i : Instr} (h : i.wf = true) : instrOf i.opcode (i.token 1) (i.token 2) = i := by
  cases i with
  | j target => exact congrArg Instr.j (resolve_token h)
  | prt value => exact congrArg Instr.prt (resolvePrt_token h)
  | _ =>
    obtain ⟨hdst, hsrc, -⟩ := rsWf_iff.mp h
    exact congrArg₂ _ (resolve_token hdst) (resolve_token hsrc)

/-- The tokenizer finds a well-formed instruction's tokens on its canonical line (R48, R64). -/
theorem tokenize_encode {i : Instr} (h : i.wf = true) :
    tokenize (encode i) = ⟨i.opcode.bytes, i.token 1, i.token 2⟩ := by
  obtain ⟨h1, h2⟩ := Instr.token_no_delim h
  rw [encode_eq, tokenize_joinTokens _ h1 h2 (Instr.token_absent h)]

/-- Settles O8: the canonical line is clean, its tokens are the instruction's, and each of them resolves to the
operand it was written for. -/
theorem decodeEncodeRoundTrip : Obligations.DecodeEncodeRoundTrip := by
  intro i h
  have hclean : (0x00 : Byte) ∉ encode i := fun h0 => (lineOk_iff.mp (encodedLineIsClean i h) _ h0).1 rfl
  refine decode_eq_ok_iff.mpr ⟨hclean, i.opcode, ?_, ?_⟩
  · rw [tokenize_encode h, lookup_bytes]
  · rw [tokenize_encode h, instrOf_token h]

/-- Settles O11: the decoder evaluated on each line. -/
theorem sampleLinesDecode : Obligations.SampleLinesDecode :=
  ⟨by decide, by decide, by decide, by decide, by decide, by decide, by decide, by decide, by decide, by decide,
    by decide, by decide⟩

end Sys2Proof
end

section
/-! What a line's text decides of its step, and the path of a run (spec/30_encoding.md R60, spec/41_jump.md R87,
spec/60_exceptions.md R114). -/

namespace Sys2Proof.Machine

/-- At a line with an error the only next state is that of error entry (R60, R112). -/
theorem step_of_lineError {s t : State} {line : Line} {k : ErrKind} (hfetch : s.fetch = some line)
    (herr : lineError line = some k) (h : step s = .next t) : t = s.withError k line := by
  obtain ⟨-, ⟨hnone, -⟩ | ⟨line', k', hf, he, rfl⟩ | ⟨line', i, hf, -, he, -⟩⟩ := step_next h
  · simp [hfetch] at hnone
  · obtain rfl : line = line' := Option.some.inj (hfetch.symm.trans hf)
    obtain rfl : k = k' := Option.some.inj (herr.symm.trans he)
    rfl
  · obtain rfl : line = line' := Option.some.inj (hfetch.symm.trans hf)
    simp [herr] at he

/-- At a line without an error a step writes none of the status group (R60, R70, R85, R90). -/
theorem step_status_of_no_lineError {s t : State} {line : Line} (hfetch : s.fetch = some line)
    (hnone : lineError line = none) (h : step s = .next t) :
    t.runState = s.runState ∧ t.errKind = s.errKind ∧ t.errIndex = s.errIndex ∧ t.errText = s.errText := by
  obtain ⟨-, heff⟩ := step_effect h
  cases heff with
  | halt hf => simp [hfetch] at hf
  | @error line' k hf he =>
    obtain rfl : line = line' := Option.some.inj (hfetch.symm.trans hf)
    simp [hnone] at he
  | write => exact ⟨rfl, rfl, rfl, rfl⟩
  | jump => exact ⟨rfl, rfl, rfl, rfl⟩
  | print => exact ⟨rfl, rfl, rfl, rfl⟩

/-- Settles O31: a clean line has a next state, which the line's error decides. -/
theorem errorDependsOnTextAlone : Obligations.ErrorDependsOnTextAlone := by
  intro s line hrun hfetch hclean
  obtain ⟨t, hnext⟩ := stepLine_isNext hfetch hclean
  rw [← step_of_fetch hrun hfetch] at hnext
  refine ⟨fun k herr => ?_, fun hnone => ⟨t, hnext, ?_⟩⟩
  · rw [hnext, step_of_lineError hfetch herr hnext]
    rfl
  · rw [← hrun]
    exact step_status_of_no_lineError hfetch hnone hnext

/-- The line placed is the line the next step fetches (log 4). -/
theorem fetch_withFetchWord (s : State) (nbits w : Nat) :
    (s.withFetchWord nbits w).fetch = some (lineOfTableWord nbits w) :=
  Memory.putLine_read _ _ _

/-- A table word's instruction is what its line decodes to (R66). -/
theorem decodeTableWord_eq_some_iff {nbits w : Nat} {i : Instr} :
    decodeTableWord nbits w = some i ↔ decode (lineOfTableWord nbits w) = .ok i := by
  unfold decodeTableWord
  split <;> simp_all

/-- Settles O53: the step fetches the line placed and decodes the instruction from it. -/
theorem tableWordRunsNext : Obligations.TableWordRunsNext := by
  intro s nbits w i h
  rw [step_of_fetch rfl (fetch_withFetchWord s nbits w), stepLine, decodeTableWord_eq_some_iff.mp h]

section
variable {s t : State}

/-- States alike in control fetch the same line (R95). -/
theorem SameControl.fetch_eq (h : SameControl s t) : s.fetch = t.fetch := by
  obtain ⟨hip, -, -, -, -, hprog, -⟩ := h
  rw [State.fetch, State.fetch, State.progRead, State.progRead, hip, hprog]

/-- Register writes leave states alike in control, whatever the cells and the values (R11). -/
theorem SameControl.writeReg (h : SameControl s t) (i j : Reg) (v w : Word) :
    SameControl (s.writeReg i v) (t.writeReg j w) := h

theorem SameControl.setIp (h : SameControl s t) (a : LineIndex) : SameControl (s.setIp a) (t.setIp a) :=
  ⟨rfl, h.2⟩

theorem SameControl.advanceIp (h : SameControl s t) : SameControl s.advanceIp t.advanceIp := by
  rw [State.advanceIp, State.advanceIp, h.1]
  exact h.setIp _

/-- Any text printed is an event of the kind other than `Done` (R20). -/
theorem Event.isDone_prt (text : List Byte) : (Event.prt text).isDone = false := rfl

/-- Events of one kind leave states alike in control, whatever text they carry (R20). -/
theorem SameControl.emit (h : SameControl s t) {d e : Event} (hkind : d.isDone = e.isDone) :
    SameControl (s.emit d) (t.emit e) := by
  obtain ⟨hip, hrun, hk, hx, ht, hp, hl, ho⟩ := h
  exact ⟨hip, hrun, hk, hx, ht, hp, hl, by simp [ho, hkind]⟩

theorem SameControl.withError (h : SameControl s t) (k : ErrKind) (line : Line) :
    SameControl (s.withError k line) (t.withError k line) := by
  obtain ⟨hip, -, -, -, -, hp, hl, ho⟩ := h
  exact ⟨hip, rfl, rfl, hip, rfl, hp, hl, ho⟩

theorem SameControl.halt (h : SameControl s t) : SameControl s.halt t.halt := by
  obtain ⟨hip, -, hk, hx, ht, hp, hl, ho⟩ := h.emit (d := .done) (e := .done) rfl
  exact ⟨hip, rfl, hk, hx, ht, hp, hl, ho⟩

/-- Error entry is alike in states alike in control (R112). -/
theorem SameControl.raise (h : SameControl s t) (k : ErrKind) : SameControlOutcome (raise k s) (raise k t) := by
  unfold Machine.raise
  rw [← h.fetch_eq]
  cases s.fetch with
  | none => rfl
  | some line => exact h.withError k line

/-- Which way format RS goes, its operands decide; the values it computes do not show in control (R70). -/
theorem SameControl.execRS (h : SameControl s t) (f : Word → Word → Word) (dst src : Operand) :
    SameControlOutcome (execRS f dst src s) (execRS f dst src t) := by
  cases dst with
  | reg rd =>
    cases src with
    | reg rs => exact (h.writeReg rd rd _ _).advanceIp
    | imm v => exact (h.writeReg rd rd _ _).advanceIp
    | text x => exact h.raise .invalidOperand
  | imm v => exact h.raise .invalidDestination
  | text x => exact h.raise .invalidDestination

/-- Every meaning is alike in states alike in control (R60, R87). -/
theorem SameControl.exec (h : SameControl s t) (i : Instr) : SameControlOutcome (exec i s) (exec i t) := by
  cases i with
  | j target =>
    cases target with
    | reg r => exact h.raise .invalidJumpTarget
    | imm v => exact h.setIp _
    | text x => exact h.raise .invalidOperand
  | prt value => exact (h.emit ((Event.isDone_prt _).trans (Event.isDone_prt _).symm)).advanceIp
  | _ => exact h.execRS _ _ _

theorem SameControl.stepLine (h : SameControl s t) (line : Line) :
    SameControlOutcome (stepLine line s) (stepLine line t) := by
  unfold Machine.stepLine
  split
  · exact h.exec _
  · exact h.raise _
  · rfl

/-- One step keeps states alike in control, or stops both alike (R87, R114). -/
theorem SameControl.step (h : SameControl s t) : SameControlOutcome (step s) (step t) := by
  have hrun : s.runState = t.runState := h.2.1
  unfold Machine.step
  rw [← hrun, ← h.fetch_eq]
  cases s.runState with
  | halted => rfl
  | running =>
    cases s.fetch with
    | none => exact h.halt
    | some line => exact h.stepLine line

end

/-- Settles O45, by induction on the number of steps, over every pair of states alike in control. -/
theorem controlFlowIgnoresRegisters : Obligations.ControlFlowIgnoresRegisters := by
  intro n
  induction n with
  | zero => exact fun s t h => h
  | succ n ih =>
    intro s t h
    have hstep : SameControlOutcome (step s) (step t) := h.step
    unfold stepN
    revert hstep
    cases step s <;> cases step t
    case next.next s' t' => exact fun hstep => ih s' t' hstep
    case fault.fault => exact id
    case refused.refused => exact id
    all_goals exact False.elim

end Sys2Proof.Machine
end

section
/-! The datapath of the seven two-operand instructions, each function once as an integer residue and once in bits
(spec/40_alu.md R71 to R78). -/

namespace Sys2Proof.Machine

/-- `to_s32(z)` is congruent to `z` modulo 2^32 (R6). -/
theorem toS32_congr (z : Int) : (4294967296 : Int) ∣ (toS32 z).toInt - z := by
  rw [toS32, BitVec.toInt_ofInt]
  exact Int.dvd_bmod_sub_self

/-- A word's signed value narrows to the word itself (R6). -/
@[simp] theorem toS32_toInt (v : Word) : toS32 v.toInt = v := BitVec.ofInt_toInt

/-- The low five bits are the residue modulo 32 (R73, D5). -/
theorem shiftAmount_eq (b : Word) : shiftAmount b = b.toNat % 32 := rfl

@[simp] theorem shiftAmount_zero : shiftAmount 0 = 0 := rfl

/-- Wrapping the exact sum is word addition (R71). -/
theorem fAdd_eq (a b : Word) : fAdd a b = a + b := by
  rw [fAdd, toS32, BitVec.ofInt_add, BitVec.ofInt_toInt, BitVec.ofInt_toInt]

/-- Wrapping the exact difference is word subtraction (R72). -/
theorem fSub_eq (a b : Word) : fSub a b = a - b := by
  rw [fSub, toS32, Int.sub_eq_add_neg, BitVec.ofInt_add, BitVec.ofInt_neg, BitVec.ofInt_toInt, BitVec.ofInt_toInt,
    BitVec.sub_eq_add_neg]

/-- Wrapping the exact product by a power of two is the logical shift (R73). -/
theorem fShl_eq (a b : Word) : fShl a b = a <<< shiftAmount b := by
  have hpow : BitVec.ofInt 32 (2 ^ shiftAmount b) = BitVec.twoPow 32 (shiftAmount b) := by
    apply BitVec.eq_of_toNat_eq
    rw [BitVec.toNat_twoPow, ← BitVec.toNat_ofNat, ← BitVec.ofInt_natCast, Nat.cast_pow, Nat.cast_ofNat]
  rw [fShl, toS32, BitVec.ofInt_mul, BitVec.ofInt_toInt, hpow, BitVec.shiftLeft_eq_mul_twoPow]

/-- The floored quotient by a power of two is the arithmetic shift, and needs no narrowing (R74). -/
theorem toInt_sshiftRight_eq_fdiv (a : Word) (n : Nat) : (a.sshiftRight n).toInt = Int.fdiv a.toInt (2 ^ n) := by
  rw [BitVec.toInt_sshiftRight, Int.shiftRight_eq_div_pow, Int.fdiv_eq_ediv_of_nonneg _ (by positivity)]
  norm_cast

/-- The floored quotient narrowed is the arithmetic shift (R74). -/
theorem fShr_eq (a b : Word) : fShr a b = a.sshiftRight (shiftAmount b) := by
  rw [fShr, ← toInt_sshiftRight_eq_fdiv, toS32_toInt]

/-- The result of SHR is the floored quotient itself (R74). -/
theorem toInt_fShr (a b : Word) : (fShr a b).toInt = Int.fdiv a.toInt (2 ^ (b.toNat % 32)) := by
  rw [fShr_eq, toInt_sshiftRight_eq_fdiv, shiftAmount_eq]

/-- Zeros enter at bit 0 (R73). -/
theorem getLsbD_fShl (a b : Word) {k : Nat} (hk : k < 32) :
    (fShl a b).getLsbD k = (decide (b.toNat % 32 ≤ k) && a.getLsbD (k - b.toNat % 32)) := by
  rw [fShl_eq, shiftAmount_eq, BitVec.getLsbD_shiftLeft]
  simp [hk, ← decide_not]

/-- Copies of bit 31 enter at the top (R74). -/
theorem getLsbD_fShr (a b : Word) {k : Nat} (hk : k < 32) :
    (fShr a b).getLsbD k = a.getLsbD (min (k + b.toNat % 32) 31) := by
  rw [fShr_eq, shiftAmount_eq, BitVec.getLsbD_sshiftRight, BitVec.msb_eq_getLsbD_last, Nat.add_comm]
  by_cases hin : k + b.toNat % 32 < 32
  · simp [hk, hin, Nat.min_eq_left (Nat.le_of_lt_succ hin)]
  · simp [hk, hin, Nat.min_eq_right (by omega : 31 ≤ k + b.toNat % 32)]

/-- The result of SHR, scaled back, lies less than one divisor below the value shifted (R74). -/
theorem fShr_bounds (a b : Word) :
    (fShr a b).toInt * 2 ^ (b.toNat % 32) ≤ a.toInt ∧ a.toInt < ((fShr a b).toInt + 1) * 2 ^ (b.toNat % 32) := by
  have hpos : (0 : Int) < 2 ^ (b.toNat % 32) := by positivity
  rw [toInt_fShr, Int.fdiv_eq_ediv_of_nonneg _ hpos.le]
  exact ⟨Int.ediv_mul_le _ hpos.ne', Int.lt_ediv_add_one_mul_self _ hpos⟩

/-- SUB of what ADD added gives the value back, wrapped or not (R78). -/
@[simp] theorem fSub_fAdd_cancel (a b : Word) : fSub (fAdd a b) b = a := by
  rw [fAdd_eq, fSub_eq, BitVec.add_sub_cancel]

@[simp] theorem fAdd_zero (a : Word) : fAdd a 0 = a := by simp [fAdd_eq]
@[simp] theorem fSub_zero (a : Word) : fSub a 0 = a := by simp [fSub_eq]
@[simp] theorem fSub_self (a : Word) : fSub a a = 0 := by simp [fSub_eq]
@[simp] theorem fShl_zero (a : Word) : fShl a 0 = a := by rw [fShl_eq, shiftAmount_zero, BitVec.shiftLeft_zero]
@[simp] theorem fShr_zero (a : Word) : fShr a 0 = a := by rw [fShr_eq, shiftAmount_zero, BitVec.sshiftRight_zero]
@[simp] theorem fAnd_zero (a : Word) : fAnd a 0 = 0 := BitVec.and_zero
@[simp] theorem fAnd_self (a : Word) : fAnd a a = a := BitVec.and_self
@[simp] theorem fAnd_neg_one (a : Word) : fAnd a (-1) = a := BitVec.and_allOnes
@[simp] theorem fOr_zero (a : Word) : fOr a 0 = a := BitVec.or_zero
@[simp] theorem fOr_self (a : Word) : fOr a a = a := BitVec.or_self

end Sys2Proof.Machine
end

section
/-! The two-operand instructions: the rule each follows, the same register in both roles, and the identities
(spec/40_alu.md R70 to R79). -/

namespace Sys2Proof.Machine

/-- A destination that is no register is an error, whatever the source is (R70, R111). -/
theorem execRS_of_dest_ne_reg {dst : Operand} (h : ∀ rd, dst ≠ .reg rd) (f : Word → Word → Word) (src : Operand)
    (s : State) : execRS f dst src s = raise .invalidDestination s := by
  cases dst with
  | reg rd => exact absurd rfl (h rd)
  | imm v => rfl
  | text t => rfl

/-- An unresolvable source is an error where the destination is a register (R70). -/
theorem execRS_of_text (f : Word → Word → Word) (rd : Reg) (t : Token) (s : State) :
    execRS f (.reg rd) (.text t) s = raise .invalidOperand s := rfl

/-- The rule of a format-RS mnemonic follows from its row of the Opcode Table, its meaning being `ExecRS` with `f`,
and what `f` computes (R70). -/
theorem rsRule_of_execRS (o : Opcode) {mk : Operand → Operand → Instr} {f : Word → Word → Word}
    {F : Word → Word → Word → Prop} (hrow : ∀ t1 t2, instrOf o t1 t2 = mk (resolve t1) (resolve t2))
    (hexec : ∀ dst src s, exec (mk dst src) s = execRS f dst src s) (hF : ∀ a b, F a b (f a b)) :
    RSRule o.bytes mk F := by
  refine ⟨fun line t1 t2 hclean htok => ?_, fun s rd rs => ⟨_, hF _ _, ?_⟩, fun s rd v => ⟨_, hF _ _, ?_⟩,
    fun s line dst src hfetch hdst => ?_, fun s line rd t hfetch => ?_⟩
  · rw [decode_of_lookup (o := o) hclean (by rw [htok, lookup_bytes]), htok, hrow]
  · rw [hexec, execRS_of_source (b := s.readReg rs) rfl]
    rfl
  · rw [hexec, execRS_of_source (b := v) rfl]
    rfl
  · rw [hexec, execRS_of_dest_ne_reg hdst, raise_of_fetch _ hfetch]
    rfl
  · rw [hexec, execRS_of_text, raise_of_fetch _ hfetch]
    rfl

/-- Settles O13: `F_ADD` is the residue of the sum. -/
theorem addFollowsItsRule : Obligations.AddFollowsItsRule :=
  rsRule_of_execRS .add (fun _ _ => rfl) (fun _ _ => exec_eq_execRS rfl) fun _ _ => toS32_congr _

/-- Settles O14: `F_SUB` is the residue of the difference. -/
theorem subFollowsItsRule : Obligations.SubFollowsItsRule :=
  rsRule_of_execRS .sub (fun _ _ => rfl) (fun _ _ => exec_eq_execRS rfl) fun _ _ => toS32_congr _

/-- Settles O15: `F_SHL` is the residue of the product, and the logical shift. -/
theorem shlFollowsItsRule : Obligations.ShlFollowsItsRule :=
  rsRule_of_execRS .shl (fun _ _ => rfl) (fun _ _ => exec_eq_execRS rfl) fun a b =>
    ⟨toS32_congr _, fun _ => getLsbD_fShl a b⟩

/-- Settles O16: `F_SHR` is the floored quotient, and the arithmetic shift. -/
theorem shrFollowsItsRule : Obligations.ShrFollowsItsRule :=
  rsRule_of_execRS .shr (fun _ _ => rfl) (fun _ _ => exec_eq_execRS rfl) fun a b =>
    ⟨fShr_bounds a b, fun _ => getLsbD_fShr a b⟩

/-- Settles O17: `F_SET` is the source. -/
theorem setFollowsItsRule : Obligations.SetFollowsItsRule :=
  rsRule_of_execRS .set (fun _ _ => rfl) (fun _ _ => exec_eq_execRS rfl) fun _ _ => rfl

/-- Settles O18: `F_AND` is the conjunction of each bit. -/
theorem andFollowsItsRule : Obligations.AndFollowsItsRule :=
  rsRule_of_execRS .and (fun _ _ => rfl) (fun _ _ => exec_eq_execRS rfl) fun _ _ _ _ => BitVec.getLsbD_and

/-- Settles O19: `F_OR` is the disjunction of each bit. -/
theorem orFollowsItsRule : Obligations.OrFollowsItsRule :=
  rsRule_of_execRS .or (fun _ _ => rfl) (fun _ _ => exec_eq_execRS rfl) fun _ _ _ _ => BitVec.getLsbD_or

section
variable {i : Instr} {rd : Reg} {src : Operand} {s : State} {b : Word}

/-- A format-RS instruction with a register destination and a resolvable source completes (R70). -/
theorem exec_of_source (hrs : i.rsOperands = some (.reg rd, src)) (hsrc : s.sourceValue src = some b) :
    exec i s = .next (s.writeReg rd (Instr.datapath i (s.readReg rd) b)).advanceIp := by
  rw [exec_eq_execRS hrs, execRS_of_source hsrc]

/-- What the destination then holds (R70). -/
theorem exec_result (hrs : i.rsOperands = some (.reg rd, src)) (hsrc : s.sourceValue src = some b) {v : Word}
    (hv : Instr.datapath i (s.readReg rd) b = v) : ∃ t, exec i s = .next t ∧ t.readReg rd = v :=
  ⟨_, exec_of_source hrs hsrc, by simp [hv]⟩

/-- An instruction whose result is the destination's old value leaves every register as it was (R78). -/
theorem exec_keeps_registers (hrs : i.rsOperands = some (.reg rd, src)) (hsrc : s.sourceValue src = some b)
    (hneutral : Instr.datapath i (s.readReg rd) b = s.readReg rd) :
    ∃ t, exec i s = .next t ∧ ∀ q, t.readReg q = s.readReg q := by
  refine ⟨_, exec_of_source hrs hsrc, fun q => ?_⟩
  by_cases hq : rd = q
  · subst hq
    simp [hneutral]
  · simp [hq]

end

/-- Settles O24: the source is read before the write, so both arguments of `F_op` are the old value. -/
theorem sameRegisterSeesOldValue : Obligations.SameRegisterSeesOldValue := by
  intro s r
  obtain ⟨tAdd, hAdd, vAdd⟩ := exec_result (i := .add (.reg r) (.reg r)) (s := s) rfl rfl rfl
  obtain ⟨tShl, hShl, vShl⟩ := exec_result (i := .shl (.reg r) (.reg r)) (s := s) rfl rfl rfl
  obtain ⟨tShr, hShr, vShr⟩ := exec_result (i := .shr (.reg r) (.reg r)) (s := s) rfl rfl rfl
  refine ⟨⟨tAdd, hAdd, ?_⟩, exec_result rfl rfl (fSub_self _), ⟨tShl, hShl, ?_⟩, ⟨tShr, hShr, ?_⟩,
    exec_result rfl rfl rfl, exec_result rfl rfl (fAnd_self _), exec_result rfl rfl (fOr_self _)⟩
  · rw [vAdd, Int.two_mul]
    exact toS32_congr _
  · rw [vShl]
    exact toS32_congr _
  · rw [vShr]
    exact toInt_fShr _ _

/-- Settles O25: each operand is neutral or clearing for its `F_op`, and `F_SUB` undoes `F_ADD`. -/
theorem arithmeticIdentities : Obligations.ArithmeticIdentities := by
  intro s r
  refine ⟨fun v => ⟨_, _, exec_of_source rfl rfl, exec_of_source rfl rfl, fun q => ?_⟩, fun i hi => ?_,
    fun i hi => ?_⟩
  · by_cases hq : r = q
    · subst hq
      simp [Instr.datapath]
    · simp [hq]
  · simp only [List.mem_cons, List.not_mem_nil, or_false] at hi
    rcases hi with rfl | rfl | rfl | rfl | rfl | rfl
    · exact exec_keeps_registers rfl rfl (fShl_zero _)
    · exact exec_keeps_registers rfl rfl (fShr_zero _)
    · exact exec_keeps_registers rfl rfl (fAdd_zero _)
    · exact exec_keeps_registers rfl rfl (fSub_zero _)
    · exact exec_keeps_registers rfl rfl (fOr_zero _)
    · exact exec_keeps_registers rfl rfl (fAnd_neg_one _)
  · simp only [List.mem_cons, List.not_mem_nil, or_false] at hi
    rcases hi with rfl | rfl
    · exact exec_result rfl rfl (fSub_self _)
    · exact exec_result rfl rfl (fAnd_zero _)

end Sys2Proof.Machine
end

section
/-! The jump: its rule, and where it leads (spec/41_jump.md R85, R86). -/

namespace Sys2Proof.Machine

/-- J to a literal replaces `ip` by the literal's 32 bits (R85). -/
theorem exec_j_imm (v : Word) (s : State) : exec (.j (.imm v)) s = .next (s.setIp v) := by
  rw [exec, execJ, toU32_toInt]

theorem exec_j_reg (r : Reg) (s : State) : exec (.j (.reg r)) s = raise .invalidJumpTarget s := rfl

theorem exec_j_text (t : Token) (s : State) : exec (.j (.text t)) s = raise .invalidOperand s := rfl

/-- The unsigned and the signed reading of 32 bits are one residue modulo 2^32 (R6). -/
theorem dvd_toNat_sub_toInt (v : Word) : (4294967296 : Int) ∣ (v.toNat : Int) - v.toInt := by
  have htoInt : v.toInt = (v.toNat : Int).bmod 4294967296 := BitVec.toInt_eq_toNat_bmod v
  rw [htoInt]
  exact Int.dvd_self_sub_bmod

/-- Settles O20: J's row of the Opcode Table, and its meaning at each form of operand. -/
theorem jumpFollowsItsRule : Obligations.JumpFollowsItsRule := by
  refine ⟨fun line t1 t2 hclean htok => ?_, fun s v => ⟨v, dvd_toNat_sub_toInt v, exec_j_imm v s⟩,
    fun s line r hfetch => ?_, fun s line t hfetch => ?_⟩
  · have hrow : lookup (tokenize line).t0 = some .j := by
      rw [htok]
      exact lookup_bytes .j
    rw [decode_of_lookup hclean hrow, htok, instrOf]
  · rw [exec_j_reg, raise_of_fetch _ hfetch]
    rfl
  · rw [exec_j_text, raise_of_fetch _ hfetch]
    rfl

/-- The step at a J with a literal (R85, R95). -/
theorem step_of_jump {s : State} {line : Line} {v : Word} (hrun : s.runState = .running)
    (hfetch : s.fetch = some line) (hdec : decode line = .ok (.j (.imm v))) : step s = .next (s.setIp v) := by
  rw [step_of_fetch hrun hfetch, stepLine, hdec]
  exact exec_j_imm v s

/-- A literal that is not negative is its own unsigned index (R86). -/
theorem toNat_eq_of_nonneg {v : Word} (h : 0 ≤ v.toInt) : v.toNat = v.toInt.toNat := by
  have hcase := BitVec.toInt_eq_toNat_cond v
  have hlt := v.isLt
  split at hcase <;> omega

/-- A negative literal, as an unsigned index, is itself plus 2^32 (R86, D7). -/
theorem toNat_eq_of_neg {v : Word} (h : v.toInt < 0) :
    (v.toNat : Int) = v.toInt + 4294967296 ∧ 2147483648 ≤ v.toNat := by
  have hcase := BitVec.toInt_eq_toNat_cond v
  split at hcase <;> omega

/-- A RUNNING state with `ip` past the end halts (R96). -/
theorem step_of_progLen_le {s : State} (hrun : s.runState = .running) (h : s.progLen ≤ s.ip.toNat) :
    step s = .next s.halt :=
  step_of_fetch_none hrun (s.fetch_eq_none_iff.mpr h)

theorem progLen_le_of_wf {s : State} (hwf : s.prog.wf = true) : s.progLen ≤ 2147483647 :=
  (Memory.wf_iff.mp hwf).1

/-- Settles O26: J is `setIp` of the literal; a target past the end, as every negative one is, fetches no line; and
setting `ip` to what it is changes nothing. -/
theorem jumpTargetsInsideAndOutside : Obligations.JumpTargetsInsideAndOutside := by
  refine ⟨fun s v hrun hwf => ⟨s.setIp v, exec_j_imm v s, fun hnonneg hlt => ?_, fun hpast => ?_, fun hneg => ?_⟩,
    fun s line v hrun hfetch hdec hself n => ?_⟩
  · have hip : v.toNat = v.toInt.toNat := toNat_eq_of_nonneg hnonneg
    have hin : (s.setIp v).ip.toNat < (s.setIp v).progLen := by
      change v.toNat < s.progLen
      omega
    obtain ⟨line, hline⟩ := Option.isSome_iff_exists.mp ((State.fetch_isSome_iff _).mpr hin)
    exact ⟨hip, line, by rw [← hip]; exact hline, hline⟩
  · have hip : v.toNat = v.toInt.toNat := toNat_eq_of_nonneg (by omega)
    exact ⟨hip, step_of_progLen_le hrun (by change s.progLen ≤ v.toNat; omega)⟩
  · obtain ⟨hip, hlarge⟩ := toNat_eq_of_neg hneg
    have hlen := progLen_le_of_wf hwf
    exact ⟨hip, hlarge, step_of_progLen_le hrun (by change s.progLen ≤ v.toNat; omega)⟩
  · have hstep : step s = .next s := by
      rw [step_of_jump hrun hfetch hdec, hself]
      rfl
    induction n with
    | zero => rfl
    | succ n ih => rw [stepN, hstep]; exact ih

end Sys2Proof.Machine
end

section
/-! Runs, cut into pieces: how far a run stays RUNNING (spec/43_executor.md R98, spec/70_reset_and_hazards.md R135). -/

namespace Sys2Proof.Machine

theorem stepN_succ_eq_next_iff {n : Nat} {s u : State} :
    stepN (n + 1) s = .next u ↔ ∃ t, step s = .next t ∧ stepN n t = .next u := by
  rw [stepN]
  cases step s <;> simp

/-- A run of `m + n` steps is one of `m` steps and one of `n` steps from where it ends (R98). -/
theorem stepN_add_eq_next_iff {m n : Nat} {s u : State} :
    stepN (m + n) s = .next u ↔ ∃ t, stepN m s = .next t ∧ stepN n t = .next u := by
  induction m generalizing s with
  | zero => simp [stepN]
  | succ m ih =>
    rw [Nat.succ_add, stepN_succ_eq_next_iff]
    simp only [ih, stepN_succ_eq_next_iff]
    constructor
    · rintro ⟨r, hr, t, ht, hu⟩
      exact ⟨t, ⟨r, hr, ht⟩, hu⟩
    · rintro ⟨t, ⟨r, hr, ht⟩, hu⟩
      exact ⟨r, hr, t, ht, hu⟩

/-- One step more at the end of a run. -/
theorem stepN_snoc {n : Nat} {s t u : State} (ht : stepN n s = .next t) (hu : step t = .next u) :
    stepN (n + 1) s = .next u :=
  stepN_add_eq_next_iff.mpr ⟨t, ht, stepN_succ_eq_next_iff.mpr ⟨u, hu, rfl⟩⟩

/-- No step writes the store (R42), over a run. -/
theorem stepN_prog {n : Nat} {s t : State} (h : stepN n s = .next t) : t.prog = s.prog :=
  (programStoreIsImmutable n s t h).1

/-- `n` steps from `s` answer a RUNNING state. -/
def StaysRunning (s : State) (n : Nat) : Prop := ∃ t, stepN n s = .next t ∧ t.runState = .running

/-- A run that ends RUNNING began RUNNING: nothing leaves HALTED (R97). -/
theorem running_of_stepN {n : Nat} {s t : State} (h : stepN n s = .next t) (ht : t.runState = .running) :
    s.runState = .running := by
  cases n with
  | zero =>
    obtain rfl := Host.Outcome.next.inj h
    exact ht
  | succ n =>
    obtain ⟨u, hu, -⟩ := stepN_succ_eq_next_iff.mp h
    exact (step_next hu).1

theorem StaysRunning.of_le {s : State} {m n : Nat} (h : StaysRunning s n) (hmn : m ≤ n) : StaysRunning s m := by
  obtain ⟨u, hu, hurun⟩ := h
  obtain ⟨d, rfl⟩ := Nat.exists_eq_add_of_le hmn
  obtain ⟨t, ht, htu⟩ := stepN_add_eq_next_iff.mp hu
  exact ⟨t, ht, running_of_stepN htu hurun⟩

/-- Over a well-formed store a run of `n` steps stays RUNNING, or has halted by then (R135). -/
theorem staysRunning_or_halts {s : State} (hrun : s.runState = .running) (hwf : s.prog.wf = true) (n : Nat) :
    StaysRunning s n ∨ ∃ k t, k ≤ n ∧ stepN k s = .next t ∧ t.runState = .halted := by
  induction n with
  | zero => exact .inl ⟨s, rfl, hrun⟩
  | succ n ih =>
    rcases ih with ⟨t, ht, htrun⟩ | ⟨k, t, hk, ht, hhalt⟩
    · obtain ⟨u, hu⟩ := runningBlockAlwaysSteps t htrun (by rw [stepN_prog ht, hwf])
      cases hurun : u.runState with
      | running => exact .inl ⟨u, stepN_snoc ht hu, hurun⟩
      | halted => exact .inr ⟨n + 1, u, Nat.le_refl _, stepN_snoc ht hu, hurun⟩
    · exact .inr ⟨k, t, by omega, ht, hhalt⟩

end Sys2Proof.Machine
end

section
/-! The path of `ip`: each step of it is a matter of the line at `ip` alone, so a cycle gone round repeats for ever
(spec/41_jump.md R87, spec/43_executor.md R100). -/

namespace Sys2Proof.Machine

/-- A line of a well-formed store holds no byte 0x00 (R17). -/
theorem clean_of_fetch {s : State} {line : Line} (hwf : s.prog.wf = true) (hfetch : s.fetch = some line) :
    (0x00 : Byte) ∉ line := fun h0 =>
  (lineOk_iff.mp ((Memory.wf_iff.mp hwf).2 line (State.mem_of_fetch hfetch)) _ h0).1 rfl

/-- A step that leaves the block RUNNING completed a clean line without an error (R95, R112). -/
theorem fetch_of_step_running {s t : State} (h : step s = .next t) (ht : t.runState = .running) :
    ∃ line, s.fetch = some line ∧ (0x00 : Byte) ∉ line ∧ lineError line = none := by
  obtain ⟨-, ⟨-, rfl⟩ | ⟨line, k, -, -, rfl⟩ | ⟨line, i, hf, hd, he, -, -⟩⟩ := step_next h
  · cases ht
  · cases ht
  · exact ⟨line, hf, (decode_eq_ok_iff.mp hd).1, he⟩

theorem ip_lt_progLen_of_step_running {s t : State} (h : step s = .next t) (ht : t.runState = .running) :
    s.ip.toNat < s.progLen := by
  obtain ⟨line, hf, -, -⟩ := fetch_of_step_running h ht
  exact s.fetch_isSome_iff.mp (by rw [hf]; rfl)

/-- Where a line at index `a` sends `ip` when it completes: a J with a literal to it, any other line one further
(R14). -/
def ipAfter (line : Line) (a : LineIndex) : LineIndex :=
  match decode line with
  | .ok (.j (.imm v)) => v
  | _ => a + 1

theorem ipAfter_of_jump {line : Line} {v : Word} (h : decode line = .ok (.j (.imm v))) (a : LineIndex) :
    ipAfter line a = v := by
  simp [ipAfter, h]

theorem ipAfter_of_not_jump {line : Line} (h : ∀ v, decode line ≠ .ok (.j (.imm v))) (a : LineIndex) :
    ipAfter line a = a + 1 := by
  unfold ipAfter
  split
  · next v hv => exact absurd hv (h v)
  · rfl

/-- `ip` after a step that leaves the block RUNNING is a matter of the line at `ip` alone (R14, R87). -/
theorem step_ip {s t : State} {line : Line} (h : step s = .next t) (ht : t.runState = .running)
    (hfetch : s.fetch = some line) : t.ip = ipAfter line s.ip := by
  obtain ⟨-, heff⟩ := step_effect h
  cases heff with
  | halt => cases ht
  | error => cases ht
  | @write line' i rd src v hf hd hrs =>
    obtain rfl : line = line' := Option.some.inj (hfetch.symm.trans hf)
    refine (ipAfter_of_not_jump (fun w hw => ?_) s.ip).symm
    obtain rfl : i = .j (.imm w) := Decoded.ok.inj (hd.symm.trans hw)
    cases hrs
  | @jump line' v hf hd =>
    obtain rfl : line = line' := Option.some.inj (hfetch.symm.trans hf)
    exact (ipAfter_of_jump hd s.ip).symm
  | @print line' v hf hd =>
    obtain rfl : line = line' := Option.some.inj (hfetch.symm.trans hf)
    refine (ipAfter_of_not_jump (fun w hw => ?_) s.ip).symm
    cases hd.symm.trans hw

/-- RUNNING at the same `ip` over the same store: all that the rest of the path depends on (R87). Unlike `SameControl`
it does not compare the logs, which grow while a cycle goes round. -/
def SamePath (s t : State) : Prop :=
  s.runState = .running ∧ t.runState = .running ∧ s.ip = t.ip ∧ s.prog = t.prog

theorem SamePath.fetch_eq {s t : State} (h : SamePath s t) : s.fetch = t.fetch := by
  obtain ⟨-, -, hip, hprog⟩ := h
  rw [State.fetch, State.fetch, State.progRead, State.progRead, hip, hprog]

/-- A step that leaves one of two states on the same path RUNNING has its like in the other (R87, R114). -/
theorem SamePath.step {s t s' : State} (h : SamePath s t) (hs : step s = .next s') (hs' : s'.runState = .running) :
    ∃ t', step t = .next t' ∧ SamePath s' t' := by
  obtain ⟨line, hfetch, hclean, hnone⟩ := fetch_of_step_running hs hs'
  have hfetch' : t.fetch = some line := h.fetch_eq ▸ hfetch
  obtain ⟨-, htrun, hip, hprog⟩ := h
  obtain ⟨t', ht, ht', -⟩ := (errorDependsOnTextAlone t line htrun hfetch' hclean).2 hnone
  refine ⟨t', ht, hs', ht', ?_, ?_⟩
  · rw [step_ip hs hs' hfetch, step_ip ht ht' hfetch', hip]
  · rw [(step_effect hs).2.prog_loadOk.1, (step_effect ht).2.prog_loadOk.1, hprog]

/-- States on the same path stay RUNNING for the same number of steps (R87). -/
theorem SamePath.staysRunning {s t : State} (h : SamePath s t) {n : Nat} (hs : StaysRunning s n) :
    StaysRunning t n := by
  induction n generalizing s t with
  | zero => exact ⟨t, rfl, h.2.1⟩
  | succ n ih =>
    obtain ⟨u, hu, hurun⟩ := hs
    obtain ⟨s', hs', hsu⟩ := stepN_succ_eq_next_iff.mp hu
    obtain ⟨t', ht', hpath⟩ := h.step hs' (running_of_stepN hsu hurun)
    obtain ⟨w, hw, hwrun⟩ := ih hpath ⟨u, hsu, hurun⟩
    exact ⟨w, stepN_succ_eq_next_iff.mpr ⟨t', ht', hw⟩, hwrun⟩

/-- Settles O46, by strong induction on the number of steps: below `k` they are steps of the first round; from `k` on,
what `s` does after `n - k` steps the state at the end of that round does too. -/
theorem completedCycleNeverHalts : Obligations.CompletedCycleNeverHalts := by
  intro k s t hk hrun hst htrun hip n
  change StaysRunning s n
  have hpath : SamePath s t := ⟨hrun, htrun, hip.symm, (stepN_prog hst).symm⟩
  induction n using Nat.strong_induction_on with
  | _ n ih =>
    rcases Nat.lt_or_ge n k with hlt | hge
    · exact StaysRunning.of_le ⟨t, hst, htrun⟩ hlt.le
    · obtain ⟨d, rfl⟩ := Nat.exists_eq_add_of_le hge
      obtain ⟨u, hu, hurun⟩ := hpath.staysRunning (ih d (by omega))
      exact ⟨u, stepN_add_eq_next_iff.mpr ⟨t, hst, hu⟩, hurun⟩

end Sys2Proof.Machine
end

section
/-! Runs whose jumps go forward, and runs that come back to an `ip` (spec/43_executor.md R101,
spec/70_reset_and_hazards.md R133, R135). -/

namespace Sys2Proof.Machine

/-- Settles O47, by induction on the lines that are left: each step that does not halt moves `ip` up. -/
theorem forwardJumpsHaltWithinProgLen : Obligations.ForwardJumpsHaltWithinProgLen := by
  intro s hrun hwf hforward
  induction hleft : s.progLen - s.ip.toNat using Nat.strong_induction_on generalizing s with
  | _ left ih =>
    obtain ⟨t, ht⟩ := runningBlockAlwaysSteps s hrun hwf
    cases htrun : t.runState with
    | halted => exact ⟨0, t, Nat.zero_le _, stepN_snoc rfl ht, htrun⟩
    | running =>
      have hprog : t.prog = s.prog := (step_effect ht).2.prog_loadOk.1
      have hlen : t.progLen = s.progLen := State.progLen_congr hprog
      have hbelow := ip_lt_progLen_of_step_running ht htrun
      have hup : s.ip.toNat < t.ip.toNat := by
        rcases (everyStepMovesIpOnce s t hwf ht).1 htrun with hnext | ⟨line, v, hf, hd, hip⟩
        · omega
        · rw [hip]
          exact hforward _ line v hf hd
      obtain ⟨k, u, hk, hu, hhalt⟩ := ih (t.progLen - t.ip.toNat) (by omega) t htrun (hprog ▸ hwf)
        (fun n line v hl => hforward n line v (State.progRead_congr hprog n ▸ hl)) rfl
      exact ⟨k + 1, u, by omega, stepN_succ_eq_next_iff.mpr ⟨t, ht, hu⟩, hhalt⟩

/-- RUNNING over the store of `s`, with `ip` from `lo` to the `ip` of `s`. -/
def InLoop (s : State) (lo : Nat) (t : State) : Prop :=
  t.runState = .running ∧ t.prog = s.prog ∧ lo ≤ t.ip.toNat ∧ t.ip.toNat ≤ s.ip.toNat

/-- One step inside the lines from a backward J's target to the J, where no J leads out: the line fails, or the step
stays inside, since the last of the lines is the J itself (R87, R101 (c)). -/
theorem InLoop.step {s t : State} {line : Line} {v : Word} (hwf : s.prog.wf = true) (hfetch : s.fetch = some line)
    (hdec : decode line = .ok (.j (.imm v))) (hback : v.toNat ≤ s.ip.toNat)
    (hin : ∀ n l w, v.toNat ≤ n → n ≤ s.ip.toNat → s.progRead n = some l → decode l = .ok (.j (.imm w)) →
      v.toNat ≤ w.toNat ∧ w.toNat ≤ s.ip.toNat) (h : InLoop s v.toNat t) :
    (∃ u, step t = .next u ∧ InLoop s v.toNat u) ∨
      ∃ l k, t.fetch = some l ∧ lineError l = some k ∧ step t = .next (errorState t k l) := by
  obtain ⟨htrun, hprog, hlo, hhi⟩ := h
  have hread : ∀ n, t.progRead n = s.progRead n := State.progRead_congr hprog
  have hwft : t.prog.wf = true := hprog ▸ hwf
  have hlt : s.ip.toNat < s.progLen := s.fetch_isSome_iff.mp (by rw [hfetch]; rfl)
  have hlen : t.progLen = s.progLen := State.progLen_congr hprog
  obtain ⟨l, hl⟩ := Option.isSome_iff_exists.mp (t.fetch_isSome_iff.mpr (by omega))
  obtain ⟨hfails, hcompletes⟩ := errorDependsOnTextAlone t l htrun hl (clean_of_fetch hwft hl)
  cases herr : lineError l with
  | some k => exact .inr ⟨l, k, hl, herr, hfails k herr⟩
  | none =>
    obtain ⟨u, hu, hurun, -⟩ := hcompletes herr
    refine .inl ⟨u, hu, hurun, (step_effect hu).2.prog_loadOk.1.trans hprog, ?_⟩
    rcases (everyStepMovesIpOnce t u hwft hu).1 hurun with hnext | ⟨l', w, hl', hd', hip⟩
    · rcases Nat.lt_or_ge t.ip.toNat s.ip.toNat with hbefore | hlast
      · omega
      · have hip : t.ip = s.ip := BitVec.eq_of_toNat_eq (Nat.le_antisymm hhi hlast)
        have htf : t.fetch = some line := by rw [State.fetch, hread, hip]; exact hfetch
        have huv : u = t.setIp v := Host.Outcome.next.inj (hu.symm.trans (step_of_jump htrun htf hdec))
        rw [huv]
        exact ⟨Nat.le_refl _, hback⟩
    · rw [hip]
      exact hin _ l' w hlo hhi (hread _ ▸ hl') hd'

/-- Settles O54, by induction on the number of steps with the invariant `InLoop`. -/
theorem backwardJumpWithNoWayOutNeverHalts : Obligations.BackwardJumpWithNoWayOutNeverHalts := by
  intro s line v hrun hwf hfetch hdec hback hin n
  suffices h : (∃ t, stepN n s = .next t ∧ InLoop s v.toNat t) ∨
      ∃ m t l k, m < n ∧ stepN m s = .next t ∧ t.runState = .running ∧ t.fetch = some l ∧ lineError l = some k ∧
        step t = .next (errorState t k l) by
    refine h.imp_left ?_
    rintro ⟨t, ht, htrun, -, hbounds⟩
    exact ⟨t, ht, htrun, hbounds⟩
  induction n with
  | zero => exact .inl ⟨s, rfl, hrun, rfl, hback, Nat.le_refl _⟩
  | succ n ih =>
    rcases ih with ⟨t, ht, hloop⟩ | ⟨m, t, l, k, hm, hfail⟩
    · rcases hloop.step hwf hfetch hdec hback hin with ⟨u, hu, hloop'⟩ | ⟨l, k, hl, herr, hstep⟩
      · exact .inl ⟨u, stepN_snoc ht hu, hloop'⟩
      · exact .inr ⟨n, t, l, k, n.lt_succ_self, ht, hloop.1, hl, herr, hstep⟩
    · exact .inr ⟨m, t, l, k, by omega, hfail⟩

/-- A run that stays RUNNING for more than `PROG_LEN` steps comes back to an `ip`: there are only `PROG_LEN` indices
to fetch from (R95, R135). -/
theorem exists_repeated_ip {s : State} (h : StaysRunning s (s.progLen + 1)) :
    ∃ i j t w, i < j ∧ j ≤ s.progLen ∧ stepN i s = .next t ∧ stepN j s = .next w ∧ t.runState = .running ∧
      w.runState = .running ∧ w.ip = t.ip := by
  have hvisit : ∀ k : Fin (s.progLen + 1), ∃ a : Fin s.progLen, ∃ t, stepN k.val s = .next t ∧
      t.runState = .running ∧ t.ip.toNat = a.val := by
    intro k
    obtain ⟨u, hu, hurun⟩ := h.of_le (m := k.val + 1) (by omega)
    obtain ⟨t, ht, htu⟩ := stepN_add_eq_next_iff.mp hu
    obtain ⟨u', hu', hlast⟩ := stepN_succ_eq_next_iff.mp htu
    have hlt := ip_lt_progLen_of_step_running hu' (running_of_stepN hlast hurun)
    rw [State.progLen_congr (stepN_prog ht)] at hlt
    exact ⟨⟨t.ip.toNat, hlt⟩, t, ht, running_of_stepN htu hurun, rfl⟩
  choose index visit using hvisit
  obtain ⟨i, j, hne, hsame⟩ := Fintype.exists_ne_map_eq_of_card_lt index (by simp)
  wlog hij : i < j generalizing i j
  · exact this j i hne.symm hsame.symm (by omega)
  obtain ⟨t, ht, htrun, hti⟩ := visit i
  obtain ⟨w, hw, hwrun, hwj⟩ := visit j
  exact ⟨i, j, t, w, hij, by omega, ht, hw, htrun, hwrun, BitVec.eq_of_toNat_eq (by rw [hti, hwj, hsame])⟩

/-- A run of at least one step that does not end above the index where it began took a J that goes back: every other
step moves `ip` up (R14, R101). -/
theorem exists_backward_jump {n : Nat} {s w : State} (hwf : s.prog.wf = true) (hn : 0 < n)
    (h : stepN n s = .next w) (hw : w.runState = .running) (hle : w.ip.toNat ≤ s.ip.toNat) :
    ∃ m u line v, m < n ∧ stepN m s = .next u ∧ u.fetch = some line ∧ decode line = .ok (.j (.imm v)) ∧
      v.toNat ≤ u.ip.toNat := by
  induction n generalizing s with
  | zero => cases hn
  | succ n ih =>
    obtain ⟨t, ht, htw⟩ := stepN_succ_eq_next_iff.mp h
    rcases Nat.lt_or_ge s.ip.toNat t.ip.toNat with hup | hdown
    · have hpos : 0 < n := by
        refine Nat.pos_of_ne_zero fun hzero => ?_
        subst hzero
        obtain rfl := Host.Outcome.next.inj htw
        omega
      have hprog : t.prog = s.prog := (step_effect ht).2.prog_loadOk.1
      obtain ⟨m, u, line, v, hm, hu, hjump⟩ := ih (hprog ▸ hwf) hpos htw (by omega)
      exact ⟨m + 1, u, line, v, by omega, stepN_succ_eq_next_iff.mpr ⟨t, ht, hu⟩, hjump⟩
    · rcases (everyStepMovesIpOnce s t hwf ht).1 (running_of_stepN htw hw) with hnext | ⟨line, v, hf, hd, hip⟩
      · omega
      · exact ⟨0, s, line, v, n.succ_pos, rfl, hf, hd, hip ▸ hdown⟩

/-- Settles O55: a run still RUNNING after `PROG_LEN` + 1 steps has come back to an `ip`; the way round holds a J that
goes back, and repeats for ever. -/
theorem runHaltsOrRepeatsABackwardJump : Obligations.RunHaltsOrRepeatsABackwardJump := by
  intro s hrun hwf
  rcases staysRunning_or_halts hrun hwf (s.progLen + 1) with hstays | hhalts
  · obtain ⟨i, j, t, w, hij, hj, ht, hw, htrun, hwrun, hip⟩ := exists_repeated_ip hstays
    obtain ⟨d, rfl⟩ := Nat.exists_eq_add_of_le hij.le
    obtain ⟨t', ht', htw⟩ := stepN_add_eq_next_iff.mp hw
    obtain rfl : t' = t := Host.Outcome.next.inj (ht'.symm.trans ht)
    have hd : 0 < d := by omega
    obtain ⟨m, u, line, v, hm, hu, hf, hdec, hback⟩ :=
      exists_backward_jump (stepN_prog ht ▸ hwf) hd htw hwrun (by rw [hip])
    have hendless : ∀ n, StaysRunning s n := fun n => by
      obtain ⟨x, hx, hxrun⟩ := completedCycleNeverHalts d t' w hd htrun htw hwrun hip n
      exact StaysRunning.of_le ⟨x, stepN_add_eq_next_iff.mpr ⟨t', ht, hx⟩, hxrun⟩ (Nat.le_add_left n i)
    exact .inr ⟨i, i + m, i + d, t', u, w, line, v, by omega, by omega, hj, ht,
      stepN_add_eq_next_iff.mpr ⟨t', ht, hu⟩, hw, hwrun, hip, hf, hdec, hback, hendless⟩
  · exact .inl hhalts

end Sys2Proof.Machine
end

section
/-! Decimal text: the shortest numeral of a value, and its length (spec/42_prt.md R92). -/

namespace Sys2Proof

open Sys2Proof.Machine

/-- The byte of a digit above zero is not "0" (R92). -/
theorem digit_ne_asciiZero {n : Nat} (hpos : 0 < n) (h : n < 10) : digit n ≠ 0x30 := fun hzero => by
  have hbyte : 0x30 + n % 10 = 0x30 := (digit_toNat n).symm.trans (congrArg BitVec.toNat hzero)
  omega

/-- The numeral of a number above zero does not begin with "0" while the fuel suffices (R92). -/
theorem head?_decNat_ne_asciiZero {fuel n : Nat} (h : n < 10 ^ (fuel + 1)) (hpos : 0 < n) :
    (decNat fuel n).head? ≠ some 0x30 := by
  induction fuel generalizing n with
  | zero => exact fun hhead => digit_ne_asciiZero hpos (by omega) (Option.some.inj hhead)
  | succ fuel ih =>
    rw [decNat]
    split
    · next hn => exact fun hhead => digit_ne_asciiZero hpos hn (Option.some.inj hhead)
    · rw [List.head?_append_of_ne_nil _ (decNat_ne_nil fuel _)]
      exact ih (by omega) (by omega)

/-- The numeral of zero is "0" (R92). -/
theorem decNat_zero (fuel : Nat) : decNat fuel 0 = [0x30] := by
  cases fuel <;> rfl

/-- A numeral denotes its number, and has no leading zero, while the fuel suffices (R92). -/
theorem isShortestNumeral_decNat {fuel n : Nat} (h : n < 10 ^ (fuel + 1)) : IsShortestNumeral (decNat fuel n) n := by
  refine ⟨digitsDenote_iff.mpr ⟨allDigits_decNat fuel n, (digitsValue_decNat fuel n h).symm⟩, fun hhead => ?_⟩
  rcases Nat.eq_zero_or_pos n with rfl | hpos
  · exact decNat_zero fuel
  · exact absurd hhead (head?_decNat_ne_asciiZero h hpos)

/-- Each unit of fuel gives at most one digit more (R92). -/
theorem length_decNat_le (fuel n : Nat) : (decNat fuel n).length ≤ fuel + 1 := by
  induction fuel generalizing n with
  | zero => exact Nat.le_refl _
  | succ fuel ih =>
    rw [decNat]
    split
    · exact Nat.le_add_left _ _
    · rw [List.length_append]
      exact Nat.add_le_add_right (ih _) 1

theorem dec_of_nonneg {v : Word} (h : 0 ≤ v.toInt) : dec v = decNat 9 v.toInt.toNat := by
  have habs : v.toInt.natAbs = v.toInt.toNat := by omega
  rw [dec, if_neg (by omega), habs]

theorem dec_of_neg {v : Word} (h : v.toInt < 0) : dec v = 0x2D :: decNat 9 (-v.toInt).toNat := by
  have habs : v.toInt.natAbs = (-v.toInt).toNat := by omega
  rw [dec, if_pos h, habs]

/-- A minus sign and ten digits (R92). -/
theorem length_dec_le (v : Word) : (dec v).length ≤ 11 := by
  rcases Int.lt_or_le v.toInt 0 with hneg | hnonneg
  · rw [dec_of_neg hneg]
    exact Nat.add_le_add_right (length_decNat_le 9 _) 1
  · rw [dec_of_nonneg hnonneg]
    exact (length_decNat_le 9 _).trans (by decide)

/-- Settles O6: ten digits hold the magnitude of 32 bits, and the model's numeral has no leading zero. -/
theorem decimalTextIsShortestNumeral : Obligations.DecimalTextIsShortestNumeral := by
  intro v
  have hlo : -2147483648 ≤ v.toInt := BitVec.le_toInt v
  have hhi : v.toInt < 2147483648 := BitVec.toInt_lt
  refine ⟨fun hnonneg => ?_, fun hneg => ⟨_, dec_of_neg hneg, isShortestNumeral_decNat (by omega)⟩,
    List.length_pos_iff.mpr (dec_ne_nil v), length_dec_le v⟩
  rw [dec_of_nonneg hnonneg]
  exact isShortestNumeral_decNat (by omega)

end Sys2Proof
end

section
/-! The output instruction: what its operand token is read as, and the one event it appends (spec/42_prt.md R90). -/

namespace Sys2Proof.Machine

theorem resolvePrt_of_regMatch {t : Token} {r : Reg} (h : regMatch t = some r) : resolvePrt t = .reg r := by
  rw [resolvePrt, h]

theorem resolvePrt_of_regMatch_none {t : Token} (h : regMatch t = none) : resolvePrt t = .text t := by
  rw [resolvePrt, h]

/-- A line whose token 0 is PRT decodes from token 1 alone (R52, R90). -/
theorem decode_prt {line : Line} {t1 t2 : Token} (hclean : (0x00 : Byte) ∉ line)
    (htok : tokenize line = ⟨Opcode.prt.bytes, t1, t2⟩) : decode line = .ok (.prt (resolvePrt t1)) := by
  rw [decode_of_lookup (o := .prt) hclean (by rw [htok, lookup_bytes]), htok, instrOf]

/-- Settles O21: PRT's row of the Opcode Table, and its meaning at each form of operand. -/
theorem printFollowsItsRule : Obligations.PrintFollowsItsRule := by
  refine ⟨fun line t1 t2 hclean htok => ⟨fun r hr => ?_, fun hr => ?_⟩, fun s r => exec_prt (.reg r) s,
    fun s t => exec_prt (.text t) s⟩
  · rw [decode_prt hclean htok, resolvePrt_of_regMatch hr]
  · rw [decode_prt hclean htok, resolvePrt_of_regMatch_none hr]

end Sys2Proof.Machine
end

section
/-! The step, one way at a time: the instruction at `ip`, the halting transition, and none when HALTED
(spec/43_executor.md R95 to R97). -/

namespace Sys2Proof.Machine

theorem stepLine_of_decode {line : Line} {i : Instr} (h : decode line = .ok i) (s : State) :
    stepLine line s = exec i s := by
  simp [stepLine, h]

theorem step_of_halted {s : State} (h : s.runState = .halted) : step s = .fault .halted := by
  simp [step, h]

/-- Settles O35: the step is that of the line fetched, and that is the meaning of what the line decodes to. -/
theorem stepRunsDecodedInstruction : Obligations.StepRunsDecodedInstruction := by
  intro s line i hrun hfetch hdec
  calc step s = stepLine line s := step_of_fetch hrun hfetch
    _ = exec i s := stepLine_of_decode hdec s

/-- Settles O36: no line is fetched, and `State.halt` writes the log and `RUN_STATE` alone. -/
theorem haltingTransitionPastTheEnd : Obligations.HaltingTransitionPastTheEnd := by
  intro s hrun hpast
  have hhalt : s.halt = { s with out := s.out ++ [.done], runState := .halted } := rfl
  rw [step_of_progLen_le hrun hpast, hhalt]

/-- Settles O37. -/
theorem haltedBlockHasNoStep : Obligations.HaltedBlockHasNoStep := fun _ h => step_of_halted h

end Sys2Proof.Machine
end

section
/-! Straight-line programs: with no J and no error, `n` steps move `ip` up by `n` (spec/43_executor.md R101 (a)). -/

namespace Sys2Proof.Machine

theorem opcode_instrOf (o : Opcode) (t1 t2 : Token) : (instrOf o t1 t2).opcode = o := by
  cases o <;> rfl

/-- What a line decodes to has the opcode its token 0 selects (R51, R66). -/
theorem lookup_of_decode {line : Line} {i : Instr} (h : decode line = .ok i) :
    lookup (tokenize line).t0 = some i.opcode := by
  obtain ⟨-, o, hrow, rfl⟩ := decode_eq_ok_iff.mp h
  rw [hrow, opcode_instrOf]

/-- A store without a J and without a line that has an error: the premise of R101 (a). -/
def StraightLine (m : Memory) : Prop :=
  ∀ line ∈ m, lookup (tokenize line).t0 ≠ some .j ∧ lineError line = none

/-- Where `n` completed lines lead from `s`: RUNNING over the same store, `ip` moved up by `n`, no error of its own. -/
def LinesRun (s : State) (n : Nat) (t : State) : Prop :=
  t.runState = .running ∧ t.prog = s.prog ∧ t.errKind = s.errKind ∧ t.ip.toNat = s.ip.toNat + n

/-- A step below the end of a straight-line store completes its line and goes on to the next (R14, R95). -/
theorem StraightLine.step {s : State} (hsl : StraightLine s.prog) (hrun : s.runState = .running)
    (hwf : s.prog.wf = true) (hlt : s.ip.toNat < s.progLen) : ∃ t, step s = .next t ∧ LinesRun s 1 t := by
  obtain ⟨line, hfetch⟩ := Option.isSome_iff_exists.mp (s.fetch_isSome_iff.mpr hlt)
  obtain ⟨hnoj, hnone⟩ := hsl line (State.mem_of_fetch hfetch)
  obtain ⟨t, ht, htrun, hkind, -⟩ :=
    (errorDependsOnTextAlone s line hrun hfetch (clean_of_fetch hwf hfetch)).2 hnone
  refine ⟨t, ht, htrun, (step_effect ht).2.prog_loadOk.1, hkind, ?_⟩
  rcases (everyStepMovesIpOnce s t hwf ht).1 htrun with hnext | ⟨line', v, hf, hdec, -⟩
  · exact hnext
  · obtain rfl : line = line' := Option.some.inj (hfetch.symm.trans hf)
    exact absurd (lookup_of_decode hdec) hnoj

/-- As many steps as there are lines left, or fewer, each complete a line. -/
theorem StraightLine.stepN {s : State} (hsl : StraightLine s.prog) (hrun : s.runState = .running)
    (hwf : s.prog.wf = true) {n : Nat} (hn : s.ip.toNat + n ≤ s.progLen) :
    ∃ t, stepN n s = .next t ∧ LinesRun s n t := by
  induction n with
  | zero => exact ⟨s, rfl, hrun, rfl, rfl, rfl⟩
  | succ n ih =>
    obtain ⟨t, ht, htrun, hprog, hkind, hip⟩ := ih (by omega)
    have hlt : t.ip.toNat < t.progLen := by
      rw [State.progLen_congr hprog]
      omega
    obtain ⟨u, hu, hurun, huprog, hukind, huip⟩ := StraightLine.step (hprog ▸ hsl) htrun (hprog ▸ hwf) hlt
    exact ⟨u, stepN_snoc ht hu, hurun, huprog.trans hprog, hukind.trans hkind, by omega⟩

/-- Settles O48: the lines left run one by one to `ip` = `PROG_LEN`, where the next step is the halting transition. -/
theorem straightLineRunsEveryLine : Obligations.StraightLineRunsEveryLine := by
  intro s hrun hwf hle hsl
  obtain ⟨t, ht, htrun, hprog, hkind, hip⟩ :=
    StraightLine.stepN hsl hrun hwf (n := s.progLen - s.ip.toNat) (by omega)
  have hend : t.ip.toNat = s.progLen := by omega
  have hlen : t.progLen = s.progLen := State.progLen_congr hprog
  exact ⟨t, t.halt, ht, htrun, hend, step_of_progLen_le htrun (by omega), t.halt_runState,
    t.halt_errKind.trans hkind⟩

end Sys2Proof.Machine
end

section
/-! The errors: which error each line reports, what error entry writes, and the exit status of a run
(spec/60_exceptions.md R107, R111, R112, R121). -/

namespace Sys2Proof.Machine

/-- Settles O27: error entry at a line is `State.withError`, which writes the status group alone. -/
theorem errorEntryWritesStatusOnly : Obligations.ErrorEntryWritesStatusOnly := fun k s line hfetch =>
  ⟨s.withError k line, raise_of_fetch k hfetch, rfl, rfl, rfl, rfl, fun _ => rfl, rfl, rfl, rfl, rfl⟩

theorem State.exitStatus_of_running {s : State} (h : s.runState = .running) : s.exitStatus = none := by
  rw [State.exitStatus, h]

/-- The exit status of a run that has ended is decided by `ERR_KIND` (R121). -/
theorem State.exitStatus_of_halted {s : State} (h : s.runState = .halted) :
    s.exitStatus = if s.errKind = .none then some 0 else some 1 := by
  rw [State.exitStatus, h]

/-- Settles O34. -/
theorem exitStatusByErrorKind : Obligations.ExitStatusByErrorKind := by
  refine fun s => ⟨State.exitStatus_of_running, fun hhalt hkind => ?_, fun hhalt hkind => ?_⟩
  · rw [State.exitStatus_of_halted hhalt, if_pos hkind]
  · rw [State.exitStatus_of_halted hhalt, if_neg hkind]

/-- A line whose token 0 has no row raises UnknownOpcode, whatever its operands are (R107). -/
theorem lineError_of_lookup_none {line : Line} (hclean : (0x00 : Byte) ∉ line)
    (h : lookup (tokenize line).t0 = none) : lineError line = some .unknownOpcode := by
  rw [lineError, decode_of_lookup_none hclean h]

/-- A line with a row raises the error of that row's instruction (R60, R111). -/
theorem lineError_of_lookup {line : Line} {t0 t1 t2 : Token} {o : Opcode} (hclean : (0x00 : Byte) ∉ line)
    (htok : tokenize line = ⟨t0, t1, t2⟩) (h : lookup t0 = some o) :
    lineError line = instrError (instrOf o t1 t2) := by
  have hdec : decode line = .ok (instrOf o t1 t2) := by
    rw [decode_of_lookup (o := o) hclean (by rw [htok, h]), htok]
  rw [lineError, hdec]

/-- Settles O29: the line's error is UnknownOpcode, and the step takes the line's error. -/
theorem unknownMnemonicHalts : Obligations.UnknownMnemonicHalts := fun s line hrun hfetch hclean hrow =>
  (errorDependsOnTextAlone s line hrun hfetch hclean).1 _ (lineError_of_lookup_none hclean hrow)

/-- The seven two-operand rows have both operand tokens resolved (R49, R70). -/
theorem rsOperands_instrOf {o : Opcode} (h : o ∈ [Opcode.add, .sub, .shl, .shr, .set, .and, .or]) (t1 t2 : Token) :
    (instrOf o t1 t2).rsOperands = some (resolve t1, resolve t2) := by
  cases o with
  | j | prt => simp at h
  | _ => rfl

/-- A token resolved as text is its own text (R54, R58). -/
theorem eq_of_resolve_eq_text {t x : Token} (h : resolve t = .text x) : x = t := by
  rcases resolve_cases t with ⟨i, -, hi⟩ | ⟨v, -, -, hv⟩ | ⟨-, -, ht⟩
  · simp [hi] at h
  · simp [hv] at h
  · simpa [ht] using h.symm

section
variable {i : Instr} {dst src : Operand} {rd : Reg}

/-- Operand 1 is examined first: where it is no register, operand 2 does not matter (R70, R111). -/
theorem instrError_of_dest_ne_reg (hrs : i.rsOperands = some (dst, src)) (h : ∀ rd, dst ≠ .reg rd) :
    instrError i = some .invalidDestination := by
  cases dst with
  | reg rd => exact absurd rfl (h rd)
  | imm v => simp [instrError, hrs]
  | text t => simp [instrError, hrs]

theorem instrError_of_source_text {t : Token} (hrs : i.rsOperands = some (.reg rd, .text t)) :
    instrError i = some .invalidOperand := by
  simp [instrError, hrs]

theorem instrError_of_source_ne_text (hrs : i.rsOperands = some (.reg rd, src)) (h : ∀ t, src ≠ .text t) :
    instrError i = none := by
  cases src with
  | reg rs => simp [instrError, hrs]
  | imm v => simp [instrError, hrs]
  | text t => exact absurd rfl (h t)

end

/-- Settles O30: the step takes the line's error (O31), and that is the error of the operands the row resolves. -/
theorem errorPriority : Obligations.ErrorPriority := by
  intro s line hrun hfetch hclean t0 t1 t2 htok
  obtain ⟨herror, hcomplete⟩ := errorDependsOnTextAlone s line hrun hfetch hclean
  have completes (hnone : lineError line = none) : ∃ t, step s = .next t ∧ t.runState = .running := by
    obtain ⟨t, hstep, htrun, -⟩ := hcomplete hnone
    exact ⟨t, hstep, htrun⟩
  refine ⟨fun hrow => ?unknown, fun o hrow ho => ?twoOperand, fun hrow => ?jump, fun hrow => ?print⟩
  case unknown => exact unknownMnemonicHalts s line hrun hfetch hclean (by rw [htok, hrow])
  all_goals rw [lineError_of_lookup hclean htok hrow] at herror completes
  case twoOperand =>
    have hrs := rsOperands_instrOf ho t1 t2
    refine ⟨fun hdst => herror _ (instrError_of_dest_ne_reg hrs hdst), fun ⟨rd, hdst⟩ hsrc => ?_,
      fun ⟨rd, hdst⟩ hsrc => ?_⟩
    · rw [hdst, hsrc] at hrs
      exact herror _ (instrError_of_source_text hrs)
    · rw [hdst] at hrs
      refine completes (instrError_of_source_ne_text hrs fun x hx => hsrc ?_)
      rw [hx, eq_of_resolve_eq_text hx]
  case jump =>
    rw [instrOf] at herror completes
    refine ⟨fun ⟨r, hr⟩ => herror _ ?_, fun htext => herror _ ?_, fun ⟨v, hv⟩ => completes ?_⟩
    · rw [hr]
      rfl
    · rw [htext]
      rfl
    · rw [hv]
      rfl
  case print => exact completes rfl

end Sys2Proof.Machine
end

section
/-! The host's reset field by field, and the start of a run after a load (spec/70_reset_and_hazards.md R125, R127). -/

namespace Sys2Proof.Machine

section
variable (s : State) (m : Memory)

@[simp] theorem State.hostReset_ip : s.hostReset.ip = 0 := rfl
@[simp] theorem State.hostReset_errIndex : s.hostReset.errIndex = 0 := rfl
@[simp] theorem State.hostReset_errText : s.hostReset.errText = [] := rfl
@[simp] theorem State.hostReset_out : s.hostReset.out = [] := rfl
@[simp] theorem State.hostReset_loadOk : s.hostReset.loadOk = s.loadOk := rfl

/-- `load_ok` decides how the block comes out of reset (R22, R125). -/
@[simp] theorem State.hostReset_runState : s.hostReset.runState = if s.loadOk then .running else .halted := rfl

/-- `load_ok` decides which error, if any, the reset reports (R106, R125). -/
@[simp] theorem State.hostReset_errKind : s.hostReset.errKind = if s.loadOk then .none else .sourceUnavailable := rfl

@[simp] theorem State.hostLoad_prog (ok : Bool) : (s.hostLoad m ok).prog = m := rfl
@[simp] theorem State.hostLoad_loadOk (ok : Bool) : (s.hostLoad m ok).loadOk = ok := rfl

/-- `ip` is 0 after a reset, so line 0 of the store is the line fetched (R127). -/
@[simp] theorem State.fetch_hostReset : s.hostReset.fetch = s.prog[0]? := rfl

end

/-- A reset sees the program store and `load_ok` alone: nothing else of the state survives it (R125). -/
theorem State.hostReset_congr {s t : State} (hprog : s.prog = t.prog) (hload : s.loadOk = t.loadOk) :
    s.hostReset = t.hostReset := by
  apply State.ext_of_fields <;> simp [hprog, hload]

/-- Settles O49. -/
theorem resetSetsEveryField : Obligations.ResetSetsEveryField := by
  refine ⟨fun s => ⟨s.readReg_hostReset, s.hostReset_ip, s.hostReset_errIndex, s.hostReset_errText,
    s.hostReset_out, s.hostReset_prog, fun hok => ?loaded, fun hfail => ?failed⟩, fun _ _ => State.hostReset_congr⟩
  case loaded => simp [hok]
  case failed => simp [hfail]

/-- Settles O52: the reset leaves the block RUNNING with line 0 fetched, so its step is that of the instruction line 0
decodes to (O35); an empty store has no line 0, and the step is the halting transition. -/
theorem firstStepIsLineZero : Obligations.FirstStepIsLineZero := by
  intro s m
  have hrun : (s.hostLoad m true).hostReset.runState = .running := by simp
  have hfetch : (s.hostLoad m true).hostReset.fetch = m[0]? := by simp
  refine ⟨fun line hline => ?lineZero, fun hempty => ?empty⟩
  case lineZero =>
    rw [hline] at hfetch
    exact ⟨hfetch, hrun, fun i hdec => stepRunsDecodedInstruction _ line i hrun hfetch hdec⟩
  case empty =>
    have hnone : (s.hostLoad m true).hostReset.fetch = none := by rw [hfetch, hempty, List.getElem?_nil]
    exact ⟨_, step_of_fetch_none hrun hnone, by simp⟩

end Sys2Proof.Machine
end
